-- ==== Sys2Proof/Word.lean ====
section
/-!
DEFINITION. The 16-bit word and its two views (spec/00_scope.md R6, R7), the byte of the host boundary, and the register
selector (10_state.md R20, R21).
-/

namespace Sys2Proof

/-- One byte: what the host's byte streams are made of (20_memory.md R58) and what a memory cell list holds. -/
abbrev Byte := BitVec 8

/-- A word, a register, a memory cell, an instruction: a 16-bit pattern (00_scope.md R4 `XLEN`, R7). -/
abbrev Word := BitVec 16

/-- The signed value of a pattern, from -32768 to 32767 (00_scope.md R7). -/
abbrev s16 (v : Word) : Int := v.toInt

/-- The pattern of an integer: `n mod 65536` with the modulus that is never negative (00_scope.md R7). -/
abbrev wrap16 (n : Int) : Word := BitVec.ofInt 16 n

/-- A register selector: every value 0 to 15 names a register (10_state.md R20, 30_encoding.md R85). -/
abbrev Reg := Fin 16

/-- The flag register `X`, selector 15 (10_state.md R21): the one register `apceq` reads without naming it. -/
abbrev regX : Reg := 15

end Sys2Proof
end

