-- ==== Sys2Proof/Machine/Flags.lean ====
section
/-!
DEFINITION. The hardware has no flags (spec/10_state.md R27). Its conditions are the test of a pattern against zero
(40_cycle_and_alu.md R127) and the word that `comp` makes of two values (R126).
-/

namespace Sys2Proof.Machine

/-- The test of `apceq` and of `div`: the pattern is `0x0000` (40_cycle_and_alu.md R127). -/
abbrev isZero (v : Word) : Prop := v = 0

/-- `CMP16` (40_cycle_and_alu.md R126): the exact signed comparison, `0x0001` for greater, `0xFFFF` for less, `0x0000` for
equal. -/
def cmp16 (a b : Word) : Word :=
  if s16 b < s16 a then 0x0001
  else if s16 a < s16 b then 0xFFFF
  else 0x0000

end Sys2Proof.Machine
end

