-- ==== Sys2Proof/Machine/Alu.lean ====
section
/-!
DEFINITION. The word ALU (spec/40_cycle_and_alu.md R120 to R125): exact integer results put back into 16 bits.
-/

namespace Sys2Proof.Machine

/-- `ADD16` (40_cycle_and_alu.md R121). -/
def add16 (a b : Word) : Word := wrap16 (s16 a + s16 b)

/-- `SUB16` (40_cycle_and_alu.md R121). -/
def sub16 (a b : Word) : Word := wrap16 (s16 a - s16 b)

/-- `MUL16` (40_cycle_and_alu.md R122). -/
def mul16 (a b : Word) : Word := wrap16 (s16 a * s16 b)

/-- `DIV16` (40_cycle_and_alu.md R123): the quotient truncated toward zero. It has no value for a zero divisor
(93_implementation_defined.md U3), so it takes the proof that there is none. -/
def div16 (a b : Word) (_nonzero : b ≠ 0) : Word := wrap16 ((s16 a).tdiv (s16 b))

/-- `AND16` (40_cycle_and_alu.md R124). -/
def and16 (a b : Word) : Word := a &&& b

/-- `OR16` (40_cycle_and_alu.md R124). -/
def or16 (a b : Word) : Word := a ||| b

/-- `XOR16` (40_cycle_and_alu.md R124). -/
def xor16 (a b : Word) : Word := a ^^^ b

/-- `NOT16` (40_cycle_and_alu.md R124). -/
def not16 (a : Word) : Word := ~~~a

/-- `SH16` (40_cycle_and_alu.md R125): a positive amount shifts right by floor division, a negative one left; the amount is
not reduced modulo 16. -/
def sh16 (a : Word) (n : Int) : Word :=
  if 0 < n then wrap16 (s16 a / ((2 ^ n.toNat : Nat) : Int))
  else if n = 0 then a
  else wrap16 (s16 a * ((2 ^ (-n).toNat : Nat) : Int))

end Sys2Proof.Machine
end

