-- ==== Sys2Proof/Syntax.lean ====
section
/-!
DEFINITION. The sixteen instructions of spec/opcode_table.json, one constructor per row, in the order of the tags of
30_encoding.md R89. The arguments are the fields of the instruction record that the row's format has (R82, R83): the three
selectors of the R format, or `reg2` and the record's 16-bit `immediate` of the I format.
-/

namespace Sys2Proof

/-- An instruction as the dispatcher's handlers receive it (40_cycle_and_alu.md R113). -/
inductive Instr where
  | and   (reg1 reg2 reg3 : Reg)          -- tag 0, R140
  | or    (reg1 reg2 reg3 : Reg)          -- tag 1, R141
  | xor   (reg1 reg2 reg3 : Reg)          -- tag 2, R142
  | not   (reg1 reg2 reg3 : Reg)          -- tag 3, R143: reg3 is ignored in execution and kept by the codec (R92)
  | sh    (reg1 reg2 reg3 : Reg)          -- tag 4, R144
  | add   (reg1 reg2 reg3 : Reg)          -- tag 5, R150
  | sub   (reg1 reg2 reg3 : Reg)          -- tag 6, R151
  | mul   (reg1 reg2 reg3 : Reg)          -- tag 7, R152
  | div   (reg1 reg2 reg3 : Reg)          -- tag 8, R153
  | comp  (reg1 reg2 reg3 : Reg)          -- tag 9, R154
  | li    (reg2 : Reg) (imm : Word)       -- tag 10, R160
  | amc   (reg2 : Reg) (imm : Word)       -- tag 11, R161
  | lwmc  (reg2 : Reg) (imm : Word)       -- tag 12, R162
  | swmc  (reg2 : Reg) (imm : Word)       -- tag 13, R163
  | piu   (reg2 : Reg) (imm : Word)       -- tag 14, R170
  | apceq (reg2 : Reg) (imm : Word)       -- tag 15, R180
  deriving DecidableEq, Repr

end Sys2Proof
end

