-- ==== Sys2Proof/WellFormed.lean ====
section
/-!
DEFINITION. Which instructions have an encoding: those whose immediate is the sign extension of an 8-bit field
(spec/30_encoding.md R84, R87). The selectors need no check, since every value 0 to 15 is legal (R85).
-/

namespace Sys2Proof

/-- The value of a record's immediate is within the 8-bit signed range (30_encoding.md R87). -/
def immFits (imm : Word) : Bool := decide (-128 ≤ s16 imm ∧ s16 imm ≤ 127)

/-- The instruction is one that some word spells (30_encoding.md R87). -/
def Instr.wf : Instr → Bool
  | .and _ _ _ | .or _ _ _ | .xor _ _ _ | .not _ _ _ | .sh _ _ _ => true
  | .add _ _ _ | .sub _ _ _ | .mul _ _ _ | .div _ _ _ | .comp _ _ _ => true
  | .li _ imm | .amc _ imm | .lwmc _ imm | .swmc _ imm | .piu _ imm | .apceq _ imm => immFits imm

end Sys2Proof
end

