-- ==== Sys2Proof/Decode.lean ====
section
/-!
DEFINITION. The instruction codec, both directions (spec/30_encoding.md R80 to R92), the serialisation of a word
(20_memory.md R58, R62), and the decoder over bytes.
-/

namespace Sys2Proof

/-! ### Bit fields and byte order -/

/-- `v[hi:lo]` read as an unsigned integer (00_scope.md R6). -/
def bits (v : Word) (hi lo : Nat) : Nat := v.toNat / 2 ^ lo % 2 ^ (hi + 1 - lo)

/-- The 4-bit register selector whose lowest bit is `lo` (30_encoding.md R82, R83, R85). -/
def selector (v : Word) (lo : Nat) : Reg := Fin.ofNat 16 (bits v (lo + 3) lo)

/-- `sext_8`: the pattern of an 8-bit field with its bit 7 copied into bits 15 to 8 (00_scope.md R8, 30_encoding.md R84). -/
def sext8 (f : Nat) : Word := if f < 128 then BitVec.ofNat 16 f else BitVec.ofNat 16 (f + 0xFF00)

/-- `bytes_of(v)`: the byte `v[15:8]`, then the byte `v[7:0]`, big-endian (20_memory.md R58, R62). -/
def bytesOf (v : Word) : Byte × Byte := (v.extractLsb' 8 8, v.extractLsb' 0 8)

/-- `word_of(b0, b1) = b0 ++ b1`, the inverse of `bytesOf` (20_memory.md R58, R62). -/
def wordOf (b0 b1 : Byte) : Word := b0 ++ b1

/-! ### The instruction record -/

/-- The decoded instruction record (00_scope.md R9). `opcode` is a plain number, wider than the 4-bit tag, so that the
dispatcher's failing arm for a tag with no handler exists (40_cycle_and_alu.md R113, 30_encoding.md R91). -/
structure Record where
  opcode : Nat
  reg1 : Reg
  reg2 : Reg
  reg3 : Reg
  immediate : Word
  deriving DecidableEq, Repr

/-- `decode(w)` of 30_encoding.md R86: total, pure, ignorant of the sentinels. -/
def decodeRecord (w : Word) : Record :=
  if bits w 15 12 ≤ 9 then
    { opcode := bits w 15 12, reg1 := selector w 8, reg2 := selector w 4, reg3 := selector w 0, immediate := 0 }
  else
    { opcode := bits w 15 12, reg1 := 0, reg2 := selector w 8, reg3 := 0, immediate := sext8 (bits w 7 0) }

/-- Which records `encode` is defined on (30_encoding.md R87). -/
def Record.valid (r : Record) : Bool :=
  if r.opcode ≤ 9 then r.immediate == 0
  else r.opcode ≤ 15 && r.reg1 == 0 && r.reg3 == 0 && immFits r.immediate

/-- The sixteen bits of a record, by the format its opcode has (30_encoding.md R82, R83, R87). -/
def Record.pack (r : Record) : Word :=
  let op := BitVec.ofNat 4 r.opcode
  if r.opcode ≤ 9 then op ++ BitVec.ofNat 4 r.reg1 ++ BitVec.ofNat 4 r.reg2 ++ BitVec.ofNat 4 r.reg3
  else op ++ BitVec.ofNat 4 r.reg2 ++ r.immediate.extractLsb' 0 8

/-- `encode(r)` of 30_encoding.md R87: defined on valid records only. -/
def encodeRecord (r : Record) : Option Word := if r.valid then some r.pack else none

/-! ### Records and instructions -/

/-- The static table of handlers (30_encoding.md R89, 40_cycle_and_alu.md R113): the instruction a record names, or none
for a tag with no handler. -/
def Record.toInstr? (r : Record) : Option Instr :=
  match r.opcode with
  | 0 => some (.and r.reg1 r.reg2 r.reg3)
  | 1 => some (.or r.reg1 r.reg2 r.reg3)
  | 2 => some (.xor r.reg1 r.reg2 r.reg3)
  | 3 => some (.not r.reg1 r.reg2 r.reg3)
  | 4 => some (.sh r.reg1 r.reg2 r.reg3)
  | 5 => some (.add r.reg1 r.reg2 r.reg3)
  | 6 => some (.sub r.reg1 r.reg2 r.reg3)
  | 7 => some (.mul r.reg1 r.reg2 r.reg3)
  | 8 => some (.div r.reg1 r.reg2 r.reg3)
  | 9 => some (.comp r.reg1 r.reg2 r.reg3)
  | 10 => some (.li r.reg2 r.immediate)
  | 11 => some (.amc r.reg2 r.immediate)
  | 12 => some (.lwmc r.reg2 r.immediate)
  | 13 => some (.swmc r.reg2 r.immediate)
  | 14 => some (.piu r.reg2 r.immediate)
  | 15 => some (.apceq r.reg2 r.immediate)
  | _ => none

/-- The record of an instruction: a field its format lacks is 0 (30_encoding.md R86, R89). -/
def Instr.toRecord : Instr → Record
  | .and reg1 reg2 reg3 => { opcode := 0, reg1, reg2, reg3, immediate := 0 }
  | .or reg1 reg2 reg3 => { opcode := 1, reg1, reg2, reg3, immediate := 0 }
  | .xor reg1 reg2 reg3 => { opcode := 2, reg1, reg2, reg3, immediate := 0 }
  | .not reg1 reg2 reg3 => { opcode := 3, reg1, reg2, reg3, immediate := 0 }
  | .sh reg1 reg2 reg3 => { opcode := 4, reg1, reg2, reg3, immediate := 0 }
  | .add reg1 reg2 reg3 => { opcode := 5, reg1, reg2, reg3, immediate := 0 }
  | .sub reg1 reg2 reg3 => { opcode := 6, reg1, reg2, reg3, immediate := 0 }
  | .mul reg1 reg2 reg3 => { opcode := 7, reg1, reg2, reg3, immediate := 0 }
  | .div reg1 reg2 reg3 => { opcode := 8, reg1, reg2, reg3, immediate := 0 }
  | .comp reg1 reg2 reg3 => { opcode := 9, reg1, reg2, reg3, immediate := 0 }
  | .li reg2 imm => { opcode := 10, reg1 := 0, reg2, reg3 := 0, immediate := imm }
  | .amc reg2 imm => { opcode := 11, reg1 := 0, reg2, reg3 := 0, immediate := imm }
  | .lwmc reg2 imm => { opcode := 12, reg1 := 0, reg2, reg3 := 0, immediate := imm }
  | .swmc reg2 imm => { opcode := 13, reg1 := 0, reg2, reg3 := 0, immediate := imm }
  | .piu reg2 imm => { opcode := 14, reg1 := 0, reg2, reg3 := 0, immediate := imm }
  | .apceq reg2 imm => { opcode := 15, reg1 := 0, reg2, reg3 := 0, immediate := imm }

/-- The instruction a word spells (30_encoding.md R86, R89). Always some instruction (R91); none only for a tag with no
handler, which a 4-bit tag never is. -/
def decode (w : Word) : Option Instr := (decodeRecord w).toInstr?

/-- The word of a well-formed instruction (30_encoding.md R87, R89). -/
def encode (i : Instr) : Word := i.toRecord.pack

/-! ### Bytes -/

/-- Why bytes are not an instruction: fewer than the two bytes of a word, or a tag with no handler (never, R91). -/
inductive DecodeError where
  | truncated
  | unknownOpcode (word : Word)
  deriving DecidableEq, Repr

/-- The instruction at the front of a byte stream, with the rest of the stream: one big-endian word (30_encoding.md R80,
20_memory.md R58). -/
def decodeBytes : List Byte → Except DecodeError (Instr × List Byte)
  | b0 :: b1 :: rest =>
    match decode (wordOf b0 b1) with
    | some i => .ok (i, rest)
    | none => .error (.unknownOpcode (wordOf b0 b1))
  | _ => .error .truncated

/-- The instruction word whose bits, numbered as spec/opcode_table.json numbers them, are `w`: the low `nbits` bits of `w`,
the bits above them zero, and one word of 16 bits in all (30_encoding.md R80). -/
def tableWord (nbits w : Nat) : Word := BitVec.ofNat 16 (w % 2 ^ nbits)

/-- What the decoder reads from that word laid out in a byte stream. -/
def decodeTableWord (nbits w : Nat) : Option Instr :=
  match decodeBytes [(bytesOf (tableWord nbits w)).1, (bytesOf (tableWord nbits w)).2] with
  | .ok (i, _) => some i
  | .error _ => none

end Sys2Proof
end

