-- ==== Sys2Proof/Config.lean ====
section
/-!
DEFINITION. What the spec leaves to whoever builds or attaches the machine (spec/00_scope.md R4): the memory capacity that
`State.reset` is built with, and the peripheral's answers that nobody scripted.
-/

namespace Sys2Proof

/-- The number of words of memory of the machine `State.reset` describes. DESIGN CHOICE (notes/assumptions/1.md): R4 and R5
leave it open, any positive integer; 256 is the value of 95_test_vectors.md. The model itself takes CAPACITY from the state,
so no meaning depends on this number. -/
def Config.resetCapacity : Nat := 256

/-- The answer `(v_new, e)` of the peripheral to a call nobody scripted (44_peripheral.md R171): a FREE VALUE, with no body,
of which nothing can be proved (93_implementation_defined.md U1; notes/assumptions/6.md). `call` numbers the calls, so
that two calls with the same three inputs may be answered differently; `cmd`, `sel` and `v` are what the core hands over. -/
opaque Config.freeAnswer (call : Nat) (cmd : Word) (sel : Reg) (v : Word) : Option Word × Option Word

end Sys2Proof
end

