-- ==== Sys2Proof/Machine/State.lean ====
section
/-!
DEFINITION. The architectural state and its reset values (spec/10_state.md R20 to R36), the types of the peripheral
boundary (44_peripheral.md R171), and the outcomes of a step that are no next state.
-/

namespace Sys2Proof.Machine

/-- A fatal condition the engine cannot continue from (60_exceptions.md R190, R192): the content of `Aborted(fault, info)`.
Entering it is a NEXT state of the model, as R190 gives it. Both are unreachable from a program (R193, R194). -/
inductive EngineFault where
  /-- `MemoryIndexError(addr)`: an address outside `[0, CAPACITY)` at the memory port (20_memory.md R55, R56). -/
  | memoryIndexError (address : Int)
  /-- `UnknownOpcode(w)`: a tag with no handler (40_cycle_and_alu.md R113). -/
  | unknownOpcode (word : Word)
  deriving DecidableEq, Repr

/-- The machine's control state (10_state.md R30). `halted` and `aborted` are terminal. -/
inductive RunState where
  | running
  | halted (code : Word)
  | aborted (cause : EngineFault)
  deriving DecidableEq, Repr

/-- What the core hands to the device in one `piu` (44_peripheral.md R171). -/
structure PeriphCall where
  cmd : Word
  sel : Reg
  v : Word
  deriving DecidableEq, Repr

/-- What the device does with one call (44_peripheral.md R170, R171): it returns an optional new register word and an
optional exit code, or it never returns (93_implementation_defined.md U2). -/
inductive PeriphAnswer where
  | returned (vNew exit : Option Word)
  | hang
  deriving DecidableEq, Repr

/-- The boundary to the peripheral, the MODEL's own state (notes/assumptions/6.md, 7.md): the oracle `PERIPH` of
00_scope.md R4 as plain data. `script` holds the answers to the next calls; past its end each call is answered by
`Config.freeAnswer`. `calls` holds the calls made, newest first; its length numbers the next one. -/
structure PeriphPort where
  script : List PeriphAnswer
  calls : List PeriphCall
  deriving DecidableEq, Repr

/-- The contents of memory: the bytes of its dump that are not zero, by their place in the dump (20_memory.md R64): the word
at address `a` is the bytes `2 * a` (high) and `2 * a + 1` (low). The canonical form is `Memory.wf` (notes/assumptions/2.md). -/
abbrev Memory := List Host.Cell

/-- The whole state of the machine (10_state.md section 1). -/
structure State where
  /-- `CAPACITY`, the number of words of memory and the modulus of both counters (00_scope.md R4, R5; 10_state.md R35):
  no step changes it. -/
  capacity : Nat
  /-- `x[0]` to `x[14]` and `X = x[15]` (10_state.md R20, R21). -/
  regs : Vector Word 16
  /-- The program counter (10_state.md R23). -/
  pc : Nat
  /-- The memory counter (10_state.md R24). -/
  mc : Nat
  /-- `MEM` (10_state.md R26). -/
  mem : Memory
  /-- The run state (10_state.md R30). -/
  run : RunState
  /-- The peripheral boundary (44_peripheral.md R171). -/
  periph : PeriphPort
  deriving DecidableEq, Repr

/-- The state after a reset with a memory of `capacity` words (10_state.md R36, 70_reset_and_hazards.md R220). -/
def State.resetOf (capacity : Nat) : State where
  capacity := capacity
  regs := Vector.replicate 16 0
  pc := 0
  mc := capacity / 2
  mem := []
  run := .running
  periph := { script := [], calls := [] }

/-- The state after reset of the machine with `Config.resetCapacity` words of memory (10_state.md R36). -/
def State.reset : State := State.resetOf Config.resetCapacity

/-- Why a step has no next state. -/
inductive Fault where
  /-- Raised by `piu` when the scripted device never returns from its call: the machine hangs inside the cycle, which has
  no successor state (44_peripheral.md R170, 93_implementation_defined.md U2). Safe: the hardware has no next state either. -/
  | peripheralHang
  deriving DecidableEq, Repr

/-- Why a step has no meaning. -/
inductive Refusal where
  /-- Raised by an arm of `exec` whose instruction has no meaning yet; safe. No arm raises it. -/
  | notModelled (mnemonic : String)
  deriving DecidableEq, Repr

end Sys2Proof.Machine
end

