-- ==== Sys2Proof/Machine/Ops.lean ====
section
/-!
DEFINITION. The named operations over registers, counters and memory, the two ways a run ends, the peripheral transaction,
and the fetch (spec/00_scope.md R8, 20_memory.md R55 to R62, 40_cycle_and_alu.md R110 to R113, R128, 60_exceptions.md R190,
R191, 44_peripheral.md R171).
-/

namespace Sys2Proof.Machine

/-! ### Registers (10_state.md R20 to R22) -/

/-- `x[i]`. -/
def State.reg (s : State) (i : Reg) : Word := s.regs[i]

/-- `x[i] <- v`. No register is hardwired (10_state.md R22). -/
def State.setReg (s : State) (i : Reg) (v : Word) : State := { s with regs := s.regs.set i v }

/-! ### Counters (40_cycle_and_alu.md R128) -/

/-- `ctr_add(c, d)` for a counter of modulus `capacity`: the modulus that is never negative. -/
def ctrAdd (capacity c : Nat) (d : Int) : Nat := (((c : Int) + d) % (capacity : Int)).toNat

/-- `pc <- ctr_add(pc, d)` (10_state.md R23, R25). -/
def State.movePc (s : State) (d : Int) : State := { s with pc := ctrAdd s.capacity s.pc d }

/-- `mc <- ctr_add(mc, d)` (10_state.md R24, R25). -/
def State.moveMc (s : State) (d : Int) : State := { s with mc := ctrAdd s.capacity s.mc d }

/-- `pc <- ctr_add(pc, 1)`, the last act of every handler that neither branches nor halts (40_cycle_and_alu.md R114). -/
def State.advance (s : State) : State := s.movePc 1

/-- Writes a result and advances: how every handler with a destination register ends. -/
def State.writeNext (s : State) (i : Reg) (v : Word) : State := (s.setReg i v).advance

/-! ### The bytes and words of memory (10_state.md R26, 20_memory.md R58, R62) -/

/-- What a byte that is not listed reads as: memory resets to zero (10_state.md R36; notes/assumptions/3.md). -/
def unlistedByte : Byte := 0

/-- The canonical form: addresses strictly rising, and no entry that an unlisted byte would read as. -/
abbrev Memory.wf (m : Memory) : Prop := m.Pairwise (fun c d => c.1 < d.1) ∧ ∀ c ∈ m, c.2 ≠ unlistedByte

/-- The byte at place `k`. -/
def Memory.readByte : Memory → Nat → Byte
  | [], _ => unlistedByte
  | (a, b) :: rest, k => if a = k then b else Memory.readByte rest k

/-- The entry for byte `b` at place `k` in front of `rest`: none for the byte an unlisted place reads as. -/
def Memory.cons (k : Nat) (b : Byte) (rest : Memory) : Memory := if b = unlistedByte then rest else (k, b) :: rest

/-- The memory with the byte at place `k` set to `b`, in canonical form. -/
def Memory.writeByte : Memory → Nat → Byte → Memory
  | [], k, b => Memory.cons k b []
  | (a, x) :: rest, k, b =>
    if k < a then Memory.cons k b ((a, x) :: rest)
    else if k = a then Memory.cons k b rest
    else (a, x) :: Memory.writeByte rest k b

/-- The place of the high byte of the word at address `a`; its low byte stands next (20_memory.md R58, R64). -/
def byteBase (a : Nat) : Nat := 2 * a

/-- `MEM[a]`. -/
def Memory.readWord (m : Memory) (a : Nat) : Word :=
  wordOf (m.readByte (byteBase a)) (m.readByte (byteBase a + 1))

/-- `MEM[a] <- v`, both bytes of the one cell. -/
def Memory.writeWord (m : Memory) (a : Nat) (v : Word) : Memory :=
  (m.writeByte (byteBase a) (bytesOf v).1).writeByte (byteBase a + 1) (bytesOf v).2

/-! ### The memory port (20_memory.md R55, R56) -/

/-- The address is one of a cell: `0 <= addr < CAPACITY`. -/
abbrev State.inMemory (s : State) (addr : Int) : Prop := 0 ≤ addr ∧ addr < (s.capacity : Int)

/-- `MemRead(addr, 1)` (20_memory.md R55). -/
def State.memRead (s : State) (addr : Int) : Except EngineFault Word :=
  if s.inMemory addr then .ok (s.mem.readWord addr.toNat) else .error (.memoryIndexError addr)

/-- `MemWrite(addr, 1, v)` (20_memory.md R56). -/
def State.memWrite (s : State) (addr : Int) (v : Word) : Except EngineFault State :=
  if s.inMemory addr then .ok { s with mem := s.mem.writeWord addr.toNat v } else .error (.memoryIndexError addr)

/-! ### The ends of a run (60_exceptions.md R190, R191): there is no other trap entry (R202) and no return (R203) -/

/-- `halt(code)`: nothing but the run state changes, so `pc` stays (60_exceptions.md R191). -/
def State.halt (s : State) (code : Word) : State := { s with run := .halted code }

/-- `raise F(info)`: nothing but the run state changes (60_exceptions.md R190). -/
def State.raise (s : State) (cause : EngineFault) : State := { s with run := .aborted cause }

/-- `EXIT_NO_INSTRUCTIONS` (10_state.md R31). -/
def exitNoInstructions : Word := 0x0000

/-- `EXIT_DIV_ZERO` (10_state.md R31). -/
def exitDivZero : Word := 0x0001

/-- `SENTINELS`, the words the halt check recognises (30_encoding.md R90). -/
def sentinels : List Word := [exitNoInstructions, exitDivZero]

/-! ### The peripheral transaction (44_peripheral.md R171) -/

/-- The device's answer to the call `c`: the next one of the script, or the free value past its end. -/
def State.periphAnswer (s : State) (c : PeriphCall) : PeriphAnswer :=
  match s.periph.script with
  | a :: _ => a
  | [] =>
    .returned (Config.freeAnswer s.periph.calls.length c.cmd c.sel c.v).1
      (Config.freeAnswer s.periph.calls.length c.cmd c.sel c.v).2

/-- The boundary after the call `c`: the answer used up, the call recorded. Nothing of the core changes (R172). -/
def State.recordCall (s : State) (c : PeriphCall) : State :=
  { s with periph := { script := s.periph.script.tail, calls := c :: s.periph.calls } }

/-! ### Fetch, halt check, decode and dispatch (40_cycle_and_alu.md R110 to R113) -/

/-- What a cycle goes on to after its fetch. -/
inductive Fetched where
  | fault (cause : EngineFault)
  | sentinel (code : Word)
  | instr (i : Instr)
  deriving DecidableEq, Repr

/-- The word at `pc` through the memory port (R110), the halt check on all its bits (R111), the codec (R112), and the table
of handlers (R113), in that order (60_exceptions.md R201). -/
def State.fetch (s : State) : Fetched :=
  match s.memRead s.pc with
  | .error cause => .fault cause
  | .ok w =>
    if w ∈ sentinels then .sentinel w
    else match decode w with
      | some i => .instr i
      | none => .fault (.unknownOpcode w)

end Sys2Proof.Machine
end

