-- ==== Sys2Proof/Machine/Operands.lean ====
section
/-!
DEFINITION. The operand forms beside a register and a literal: the data address of `lwmc` and `swmc`
(spec/43_immediate_memory.md R164) and the delta of `amc` and `apceq` (40_cycle_and_alu.md R129).
-/

namespace Sys2Proof.Machine

/-- `EA(imm) = ctr_add(mc, s16(imm))`: reduced modulo CAPACITY, `mc` unchanged (43_immediate_memory.md R164). -/
def State.ea (s : State) (imm : Word) : Nat := ctrAdd s.capacity s.mc (s16 imm)

/-- `DELTA(x[reg2], imm)`: the signed value of the 16-bit sum (40_cycle_and_alu.md R129). -/
def State.delta (s : State) (reg2 : Reg) (imm : Word) : Int := s16 (add16 (s.reg reg2) imm)

end Sys2Proof.Machine
end

