-- ==== Sys2Proof/Machine/Arith.lean ====
section
/-!
DEFINITION. The arithmetic and comparison instructions `add`, `sub`, `mul`, `div`, `comp` (spec/42_arithmetic_compare.md
R150 to R154).
-/

namespace Sys2Proof.Machine

/-- `add rd, ra, rb` (42_arithmetic_compare.md R150). -/
def execAdd (reg1 reg2 reg3 : Reg) (s : State) : Host.Outcome State Fault Refusal :=
  .next (s.writeNext reg1 (add16 (s.reg reg2) (s.reg reg3)))

/-- `sub rd, ra, rb` (42_arithmetic_compare.md R151). -/
def execSub (reg1 reg2 reg3 : Reg) (s : State) : Host.Outcome State Fault Refusal :=
  .next (s.writeNext reg1 (sub16 (s.reg reg2) (s.reg reg3)))

/-- `mul rd, ra, rb` (42_arithmetic_compare.md R152). -/
def execMul (reg1 reg2 reg3 : Reg) (s : State) : Host.Outcome State Fault Refusal :=
  .next (s.writeNext reg1 (mul16 (s.reg reg2) (s.reg reg3)))

/-- `div rd, ra, rb`: a zero divisor halts with `EXIT_DIV_ZERO` and writes nothing else (42_arithmetic_compare.md R153). -/
def execDiv (reg1 reg2 reg3 : Reg) (s : State) : Host.Outcome State Fault Refusal :=
  if h : isZero (s.reg reg3) then .next (s.halt exitDivZero)
  else .next (s.writeNext reg1 (div16 (s.reg reg2) (s.reg reg3) h))

/-- `comp rd, ra, rb` (42_arithmetic_compare.md R154). -/
def execComp (reg1 reg2 reg3 : Reg) (s : State) : Host.Outcome State Fault Refusal :=
  .next (s.writeNext reg1 (cmp16 (s.reg reg2) (s.reg reg3)))

end Sys2Proof.Machine
end

