-- ==== Sys2Proof/Machine/Bitwise.lean ====
section
/-!
DEFINITION. The bitwise and shift instructions `and`, `or`, `xor`, `not`, `sh` (spec/41_bitwise_shift.md R140 to R144).
-/

namespace Sys2Proof.Machine

/-- `and rd, ra, rb` (41_bitwise_shift.md R140). -/
def execAnd (reg1 reg2 reg3 : Reg) (s : State) : Host.Outcome State Fault Refusal :=
  .next (s.writeNext reg1 (and16 (s.reg reg2) (s.reg reg3)))

/-- `or rd, ra, rb` (41_bitwise_shift.md R141). -/
def execOr (reg1 reg2 reg3 : Reg) (s : State) : Host.Outcome State Fault Refusal :=
  .next (s.writeNext reg1 (or16 (s.reg reg2) (s.reg reg3)))

/-- `xor rd, ra, rb` (41_bitwise_shift.md R142). -/
def execXor (reg1 reg2 reg3 : Reg) (s : State) : Host.Outcome State Fault Refusal :=
  .next (s.writeNext reg1 (xor16 (s.reg reg2) (s.reg reg3)))

/-- `not rd, ra`; the third selector is ignored (41_bitwise_shift.md R143). -/
def execNot (reg1 reg2 : Reg) (s : State) : Host.Outcome State Fault Refusal :=
  .next (s.writeNext reg1 (not16 (s.reg reg2)))

/-- `sh rd, ra, rb`: shift by the signed amount in `rb` (41_bitwise_shift.md R144). -/
def execSh (reg1 reg2 reg3 : Reg) (s : State) : Host.Outcome State Fault Refusal :=
  .next (s.writeNext reg1 (sh16 (s.reg reg2) (s16 (s.reg reg3))))

end Sys2Proof.Machine
end

