-- ==== Sys2Proof/Machine/Branch.lean ====
section
/-!
DEFINITION. The one control transfer, `apceq` (spec/45_branch.md R180).
-/

namespace Sys2Proof.Machine

/-- `apceq ra, imm`: a taken branch moves `pc` from the address of the `apceq` itself and does not also add 1
(45_branch.md R180). -/
def execApceq (reg2 : Reg) (imm : Word) (s : State) : Host.Outcome State Fault Refusal :=
  if isZero (s.reg regX) then .next (s.movePc (s.delta reg2 imm)) else .next s.advance

end Sys2Proof.Machine
end

