-- ==== Sys2Proof/Machine/ImmMem.lean ====
section
/-!
DEFINITION. The immediate and memory instructions `li`, `amc`, `lwmc`, `swmc` (spec/43_immediate_memory.md R160 to R163).
-/

namespace Sys2Proof.Machine

/-- `li ra, imm` (43_immediate_memory.md R160). -/
def execLi (reg2 : Reg) (imm : Word) (s : State) : Host.Outcome State Fault Refusal :=
  .next (s.writeNext reg2 imm)

/-- `amc ra, imm` (43_immediate_memory.md R161). -/
def execAmc (reg2 : Reg) (imm : Word) (s : State) : Host.Outcome State Fault Refusal :=
  .next (s.moveMc (s.delta reg2 imm)).advance

/-- `lwmc ra, imm` (43_immediate_memory.md R162): a fault of the port leaves `x[reg2]` and `pc` unwritten. -/
def execLwmc (reg2 : Reg) (imm : Word) (s : State) : Host.Outcome State Fault Refusal :=
  match s.memRead (s.ea imm) with
  | .ok v => .next (s.writeNext reg2 v)
  | .error cause => .next (s.raise cause)

/-- `swmc ra, imm` (43_immediate_memory.md R163). -/
def execSwmc (reg2 : Reg) (imm : Word) (s : State) : Host.Outcome State Fault Refusal :=
  match s.memWrite (s.ea imm) (s.reg reg2) with
  | .ok s' => .next s'.advance
  | .error cause => .next (s.raise cause)

end Sys2Proof.Machine
end

