-- ==== Sys2Proof/Machine/Peripheral.lean ====
section
/-!
DEFINITION. The peripheral instruction `piu` (spec/44_peripheral.md R170 to R172).
-/

namespace Sys2Proof.Machine

/-- What the core does with the device's answer (44_peripheral.md R170): the register write, if any, comes before the look
at the exit code; with an exit code `pc` is not advanced. -/
def State.takeAnswer (s : State) (reg2 : Reg) (vNew exit : Option Word) : State :=
  let written := match vNew with
    | some v => s.setReg reg2 v
    | none => s
  match exit with
  | some code => written.halt code
  | none => written.advance

/-- `piu ra, imm` (44_peripheral.md R170). A device that never returns leaves the cycle without a next state
(93_implementation_defined.md U2; notes/assumptions/8.md). -/
def execPiu (reg2 : Reg) (imm : Word) (s : State) : Host.Outcome State Fault Refusal :=
  let call : PeriphCall := { cmd := imm, sel := reg2, v := s.reg reg2 }
  match s.periphAnswer call with
  | .returned vNew exit => .next ((s.recordCall call).takeAnswer reg2 vNew exit)
  | .hang => .fault .peripheralHang

end Sys2Proof.Machine
end

