-- ==== Sys2Proof/Machine/Dispatch.lean ====
section
/-!
DEFINITION. The dispatcher (spec/40_cycle_and_alu.md R113): one arm per instruction, each one call of its meaning.
-/

namespace Sys2Proof.Machine

def exec (i : Instr) (s : State) : Host.Outcome State Fault Refusal :=
  match i with
  | .and reg1 reg2 reg3 => Sys2Proof.Machine.execAnd reg1 reg2 reg3 s
  | .or reg1 reg2 reg3 => Sys2Proof.Machine.execOr reg1 reg2 reg3 s
  | .xor reg1 reg2 reg3 => Sys2Proof.Machine.execXor reg1 reg2 reg3 s
  | .not reg1 reg2 _ => Sys2Proof.Machine.execNot reg1 reg2 s
  | .sh reg1 reg2 reg3 => Sys2Proof.Machine.execSh reg1 reg2 reg3 s
  | .add reg1 reg2 reg3 => Sys2Proof.Machine.execAdd reg1 reg2 reg3 s
  | .sub reg1 reg2 reg3 => Sys2Proof.Machine.execSub reg1 reg2 reg3 s
  | .mul reg1 reg2 reg3 => Sys2Proof.Machine.execMul reg1 reg2 reg3 s
  | .div reg1 reg2 reg3 => Sys2Proof.Machine.execDiv reg1 reg2 reg3 s
  | .comp reg1 reg2 reg3 => Sys2Proof.Machine.execComp reg1 reg2 reg3 s
  | .li reg2 imm => Sys2Proof.Machine.execLi reg2 imm s
  | .amc reg2 imm => Sys2Proof.Machine.execAmc reg2 imm s
  | .lwmc reg2 imm => Sys2Proof.Machine.execLwmc reg2 imm s
  | .swmc reg2 imm => Sys2Proof.Machine.execSwmc reg2 imm s
  | .piu reg2 imm => Sys2Proof.Machine.execPiu reg2 imm s
  | .apceq reg2 imm => Sys2Proof.Machine.execApceq reg2 imm s

end Sys2Proof.Machine
end

