-- ==== Sys2Proof/Machine/Step.lean ====
section
/-!
DEFINITION. One step of the machine: one cycle while it runs (spec/40_cycle_and_alu.md R110 to R116), and the placing of an
instruction where the next cycle fetches it.
-/

namespace Sys2Proof.Machine

/-- One cycle when `run = Running`. A run that has ended performs no cycle and changes nothing (40_cycle_and_alu.md R116;
notes/assumptions/4.md). -/
def step (s : State) : Host.Outcome State Fault Refusal :=
  match s.run with
  | .running =>
    match s.fetch with
    | .fault cause => .next (s.raise cause)
    | .sentinel code => .next (s.halt code)
    | .instr i => exec i s
  | .halted _ => .next s
  | .aborted _ => .next s

/-- The state with the instruction word `tableWord nbits w` stored at `pc` and the machine running, so that the next step
fetches it (notes/assumptions/10.md). -/
def State.withFetchWord (s : State) (nbits w : Nat) : State :=
  { s with mem := s.mem.writeWord s.pc (tableWord nbits w), run := .running }

end Sys2Proof.Machine
end

