-- ==== Sys2Proof/Machine/HostPort.lean ====
section
/-!
DEFINITION. The host's transactions outside a run: construction, reset, the program load, the start, the reading of the end
state, the dump and the exit-code table (spec/20_memory.md R62 to R65, 60_exceptions.md R195, R196, 70_reset_and_hazards.md
R220 to R222, 10_state.md R31). How far the host has come is no state of the machine (R221): a `Session` holds it beside the
machine.
-/

namespace Sys2Proof.Machine

/-- Why a transaction of the host is refused (60_exceptions.md R192, 70_reset_and_hazards.md R221, R222). A refused transaction
changes nothing. -/
inductive LaunchError where
  /-- `InvalidSize`: the word count is not a positive integer (60_exceptions.md R195). -/
  | invalidSize
  /-- `MemoryOverflowError`: the stream is longer than `2 * CAPACITY` bytes (60_exceptions.md R196). -/
  | memoryOverflowError
  /-- The stream has an odd number of bytes; the spec gives it no name (20_memory.md R63). -/
  | oddLength
  /-- The machine is not in its reset state, in which alone a load is performed (20_memory.md R63). -/
  | notReset
  /-- The run loop was started: a load or a second start comes too late (70_reset_and_hazards.md R221, R222). -/
  | runStarted
  /-- A program was loaded since the reset; a load happens once (20_memory.md R63, 92_eei_decisions.md D21). -/
  | alreadyLoaded
  /-- A start before a load that succeeded: there is no run (70_reset_and_hazards.md R221). -/
  | notLoaded
  /-- A reset during the run, when the host can do nothing (70_reset_and_hazards.md R222). -/
  | duringRun
  deriving DecidableEq, Repr

/-- Construction with a memory of `byteSize` bytes, then reset: `byteSize` must be a positive even number
(60_exceptions.md R195, 70_reset_and_hazards.md R220). -/
def construct (byteSize : Int) : Except LaunchError State :=
  if 0 < byteSize ∧ byteSize % 2 = 0 then .ok (State.resetOf (byteSize / 2).toNat) else .error .invalidSize

/-- The words of the stream from address `a` up (20_memory.md R63). -/
def Memory.loadWords (m : Memory) (a : Nat) : List Byte → Memory
  | b0 :: b1 :: rest => Memory.loadWords (m.writeWord a (wordOf b0 b1)) (a + 1) rest
  | _ => m

/-- In its reset state, whatever device is attached (70_reset_and_hazards.md R220). -/
abbrev State.isReset (s : State) : Prop := s = { State.resetOf s.capacity with periph := s.periph }

/-- `loadProgram(byteStream)` (20_memory.md R63, 70_reset_and_hazards.md R222): before the run and on a machine in its reset
state alone; then the length test comes first. `started` says whether the run loop was started. -/
def State.loadProgram (s : State) (started : Bool) (bytes : List Byte) : Except LaunchError State :=
  if started then .error .runStarted
  else if ¬ s.isReset then .error .notReset
  else if 2 * s.capacity < bytes.length then .error .memoryOverflowError
  else if bytes.length % 2 = 1 then .error .oddLength
  else .ok { s with mem := s.mem.loadWords 0 bytes }

/-- Construct, reset, attach a device that answers by `script` first, load: the launch state
(70_reset_and_hazards.md R221; the oracle is supplied afresh per run, 93_implementation_defined.md U20). -/
def launch (byteSize : Int) (script : List PeriphAnswer) (bytes : List Byte) : Except LaunchError State :=
  match construct byteSize with
  | .error e => .error e
  | .ok s => State.loadProgram { s with periph := { script := script, calls := [] } } false bytes

/-- The bytes of the words from address 0 to `CAPACITY - 1` (20_memory.md R64). -/
def State.dumpBytes (s : State) : List Byte :=
  (List.range s.capacity).flatMap fun a => [(bytesOf (s.mem.readWord a)).1, (bytesOf (s.mem.readWord a)).2]

/-- During the run: the run loop was started and has not returned (70_reset_and_hazards.md R222). -/
abbrev State.inRun (s : State) (started : Bool) : Prop := started = true ∧ s.run = .running

/-- `dump()`: the host has no move during a run (20_memory.md R64, 70_reset_and_hazards.md R222). -/
def State.dump (s : State) (started : Bool) : Option (List Byte) :=
  if s.inRun started then none else some s.dumpBytes

/-- What the host may read beside the dump: the exit code or the fault, the registers and the counters
(40_cycle_and_alu.md R116, 70_reset_and_hazards.md R221). -/
structure HostReading where
  run : RunState
  regs : Vector Word 16
  pc : Nat
  mc : Nat
  deriving DecidableEq, Repr

/-- The reading of the state: the host has no move during a run (70_reset_and_hazards.md R222, 92_eei_decisions.md D21). -/
def State.hostRead (s : State) (started : Bool) : Option HostReading :=
  if s.inRun started then none else some { run := s.run, regs := s.regs, pc := s.pc, mc := s.mc }

/-- How far the host has come in the launch sequence (70_reset_and_hazards.md R221). -/
inductive HostPhase where
  /-- The machine was constructed and reset. -/
  | fresh
  /-- A program was loaded. -/
  | loaded
  /-- The run loop was started; only a reset leaves this phase. -/
  | started
  deriving DecidableEq, Repr

/-- The host's side and the machine it owns (70_reset_and_hazards.md R221, R222). -/
structure Session where
  phase : HostPhase
  machine : State
  deriving DecidableEq, Repr

/-- The run loop was started since the last reset. -/
def Session.isStarted (x : Session) : Bool := x.phase = .started

/-- Steps 1 and 2 of the launch sequence, with a device that answers by `script` first (70_reset_and_hazards.md R221). -/
def Session.construct (byteSize : Int) (script : List PeriphAnswer) : Except LaunchError Session :=
  match Machine.construct byteSize with
  | .error e => .error e
  | .ok s => .ok { phase := .fresh, machine := { s with periph := { script := script, calls := [] } } }

/-- A full machine reset, which may choose the memory anew (70_reset_and_hazards.md R220), at any time but during the run. -/
def Session.reset (x : Session) (byteSize : Int) (script : List PeriphAnswer) : Except LaunchError Session :=
  if x.machine.inRun x.isStarted then .error .duringRun else Session.construct byteSize script

/-- Step 3: the load, once and before the start (70_reset_and_hazards.md R221, 92_eei_decisions.md D21). -/
def Session.load (x : Session) (bytes : List Byte) : Except LaunchError Session :=
  if x.phase = .loaded then .error .alreadyLoaded
  else match x.machine.loadProgram x.isStarted bytes with
    | .error e => .error e
    | .ok s => .ok { phase := .loaded, machine := s }

/-- Step 4: the start of the run loop, after a load that succeeded (70_reset_and_hazards.md R221). -/
def Session.start (x : Session) : Except LaunchError Session :=
  match x.phase with
  | .fresh => .error .notLoaded
  | .loaded => .ok { x with phase := .started }
  | .started => .error .runStarted

/-- Step 5: the dump. -/
def Session.dump (x : Session) : Option (List Byte) := x.machine.dump x.isStarted

/-- Step 5: the exit code or the fault, the registers and the counters. -/
def Session.read (x : Session) : Option HostReading := x.machine.hostRead x.isStarted

/-- The exit-code table: for diagnosis only (10_state.md R31). -/
def exitReason (code : Word) : Option String :=
  if code = exitNoInstructions then some "no instructions left to execute"
  else if code = exitDivZero then some "division by zero"
  else none

end Sys2Proof.Machine
end

