-- ==== Sys2Proof/Machine/RunLoop.lean ====
section
/-!
DEFINITION. The run loop (spec/40_cycle_and_alu.md R116), with fuel, since a program need not end, and one cycle
of a machine that a host owns.
-/

namespace Sys2Proof.Machine

/-- How the loop stops. Running out of fuel is the model's own outcome, apart from every end of the run
(93_implementation_defined.md U15). -/
inductive RunResult where
  | ended (s : State)
  | outOfFuel (s : State)
  | stuck (f : Fault)
  | refused (r : Refusal)
  deriving DecidableEq, Repr

/-- Cycles, one after another, while `run = Running`, at most `fuel` of them. -/
def runLoop (fuel : Nat) (s : State) : RunResult :=
  if s.run ≠ .running then .ended s
  else match fuel with
    | 0 => .outOfFuel s
    | n + 1 =>
      match step s with
      | .next s' => runLoop n s'
      | .fault f => .stuck f
      | .refused r => .refused r

/-- One cycle of the host's machine: none before the start, and the phase stays, so the host gets no move back by anything the
program does (spec/70_reset_and_hazards.md R221, R222). -/
def Session.cycle (x : Session) : Host.Outcome Session Fault Refusal :=
  match x.phase with
  | .fresh => .next x
  | .loaded => .next x
  | .started =>
    match step x.machine with
    | .next s => .next { x with machine := s }
    | .fault f => .fault f
    | .refused r => .refused r

end Sys2Proof.Machine
end

