-- ==== Sys2Proof/Safety.lean ====
section
/-!
DEFINITION. What counts as a safe run: the relations between the fields that every state of a run has, and the absence of a
fault (spec/10_state.md R25, R30; 60_exceptions.md R190 to R194).
-/

namespace Sys2Proof.Machine

/-- The fields fit each other: CAPACITY is positive (00_scope.md R5), both counters are in `[0, CAPACITY)` (10_state.md R25),
and memory is in canonical form and lists nothing outside its `2 * CAPACITY` bytes (10_state.md R26). -/
abbrev State.Inv (s : State) : Prop :=
  0 < s.capacity ∧ s.pc < s.capacity ∧ s.mc < s.capacity ∧ s.mem.wf ∧ ∀ c ∈ s.mem, c.1 < 2 * s.capacity

/-- No fault has stopped the engine (60_exceptions.md R190). -/
def State.notAborted (s : State) : Bool :=
  match s.run with
  | .running => true
  | .halted _ => true
  | .aborted _ => false

/-- A safe state: its fields fit each other and no fault has stopped the engine. -/
abbrev State.Safe (s : State) : Prop := s.Inv ∧ s.notAborted = true

end Sys2Proof.Machine

namespace Sys2Proof

/-- The register an instruction may write (10_state.md R22): every other register keeps its word. -/
def Instr.dest : Instr → Option Reg
  | .and reg1 _ _ | .or reg1 _ _ | .xor reg1 _ _ | .not reg1 _ _ | .sh reg1 _ _ => some reg1
  | .add reg1 _ _ | .sub reg1 _ _ | .mul reg1 _ _ | .div reg1 _ _ | .comp reg1 _ _ => some reg1
  | .li reg2 _ | .lwmc reg2 _ | .piu reg2 _ => some reg2
  | .amc _ _ | .swmc _ _ | .apceq _ _ => none

/-- `tag << 12 | reg1 << 8 | reg2 << 4 | reg3`, as the instruction rules write an R-format word (41_bitwise_shift.md R140 to
42_arithmetic_compare.md R154). -/
def rWord (tag : Nat) (reg1 reg2 reg3 : Reg) : Word :=
  BitVec.ofNat 16 (tag * 2 ^ 12 + reg1.val * 2 ^ 8 + reg2.val * 2 ^ 4 + reg3.val)

/-- `tag << 12 | reg2 << 8 | imm8`, as the instruction rules write an I-format word, `imm8` being the low byte of the
immediate (43_immediate_memory.md R160 to 45_branch.md R180). -/
def iWord (tag : Nat) (reg2 : Reg) (imm : Word) : Word :=
  BitVec.ofNat 16 (tag * 2 ^ 12 + reg2.val * 2 ^ 8 + imm.toNat % 2 ^ 8)

end Sys2Proof
end

