-- ==== Sys2Proof/Certificates/Slice0/Obligations.lean ====
section
/-!
DEFINITION. The statements about the model, from the numbered rules of spec/. Each docstring names the rules it formalises.
-/

open Sys2Proof Sys2Proof.Machine

/-! ## The codec (30_encoding.md) -/

/-- 95_test_vectors.md section 2.1: one word per instruction, computed by the spec from its layout (R82, R83, R89), decodes to
the instruction it is given for, and is that instruction's encoding. -/
def Obligations.SpecWordsDecode : Prop :=
  ∀ p ∈ ([(0x0312, .and 3 1 2), (0x1000, .or 0 0 0), (0x2312, .xor 3 1 2), (0x312F, .not 1 2 15),
      (0x4112, .sh 1 1 2), (0x5221, .add 2 2 1), (0x6113, .sub 1 1 3), (0x7534, .mul 5 3 4)] ++
    [(0x8312, .div 3 1 2), (0x9F14, .comp 15 1 4), (0xA280, .li 2 0xFF80), (0xB2FF, .amc 2 0xFFFF),
      (0xC3FE, .lwmc 3 0xFFFE), (0xD200, .swmc 2 0), (0xE302, .piu 3 2), (0xFFFB, .apceq 15 0xFFFB)] : List (Word × Instr)),
    decode p.1 = some p.2 ∧ encode p.2 = p.1

/-- R82, R83: the four 4-bit fields of a word, written most significant first, are the tag and then the fields of the tag's
format; the immediate of the I format is the sign extension of the low byte. -/
def Obligations.RowsDecodeByTheirFields : Prop :=
  ∀ op a b c : BitVec 4, ∀ reg1 reg2 reg3 : Reg, reg1.val = a.toNat → reg2.val = b.toNat → reg3.val = c.toNat →
    decode (op ++ a ++ b ++ c) = some (match op.toNat with
      | 0 => .and reg1 reg2 reg3
      | 1 => .or reg1 reg2 reg3
      | 2 => .xor reg1 reg2 reg3
      | 3 => .not reg1 reg2 reg3
      | 4 => .sh reg1 reg2 reg3
      | 5 => .add reg1 reg2 reg3
      | 6 => .sub reg1 reg2 reg3
      | 7 => .mul reg1 reg2 reg3
      | 8 => .div reg1 reg2 reg3
      | 9 => .comp reg1 reg2 reg3
      | 10 => .li reg1 ((b ++ c).signExtend 16)
      | 11 => .amc reg1 ((b ++ c).signExtend 16)
      | 12 => .lwmc reg1 ((b ++ c).signExtend 16)
      | 13 => .swmc reg1 ((b ++ c).signExtend 16)
      | 14 => .piu reg1 ((b ++ c).signExtend 16)
      | _ => .apceq reg1 ((b ++ c).signExtend 16))

/-- R88: both round trips of the codec over records, and injectivity. -/
def Obligations.RecordCodecRoundTrip : Prop :=
  (∀ w, encodeRecord (decodeRecord w) = some w) ∧
  (∀ r, r.valid = true → ∃ w, encodeRecord r = some w ∧ decodeRecord w = r) ∧
  Function.Injective decodeRecord

/-- R87, R88 for instructions: decoding the word of a well-formed instruction gives it back, with every operand at every value
the encoding admits. -/
def Obligations.DecodeEncodeEveryInstruction : Prop :=
  ∀ i : Instr, i.wf = true → decode (encode i) = some i

/-- R91: there is no illegal word. Every word is the encoding of exactly one well-formed instruction, the one it decodes to. -/
def Obligations.EveryWordIsOneInstruction : Prop :=
  ∀ w : Word, ∃ i : Instr, i.wf = true ∧ decode w = some i ∧ ∀ j : Instr, j.wf = true → (encode j = w ↔ j = i)

/-- R62 and the byte order of R58: serialising a word and reading it back are inverse, high byte first. -/
def Obligations.WordSerialisationInverse : Prop :=
  (∀ v : Word, wordOf (bytesOf v).1 (bytesOf v).2 = v) ∧
  ∀ b0 b1 : Byte, bytesOf (wordOf b0 b1) = (b0, b1) ∧ (wordOf b0 b1).toNat = 256 * b0.toNat + b1.toNat

/-! ## The ALU and the counters (40_cycle_and_alu.md) -/

/-- R123: `DIV16` truncates. Except for -32768 / -1, whose result is 0x8000, the quotient times the divisor is no larger than
the dividend in magnitude, has its sign or is zero, and falls short of it by less than the divisor. -/
def Obligations.DivisionTruncates : Prop :=
  ∀ (a b : Word) (h : b ≠ 0),
    (a = 0x8000 ∧ b = 0xFFFF → div16 a b h = 0x8000) ∧
    (¬ (a = 0x8000 ∧ b = 0xFFFF) →
      (s16 (div16 a b h) * s16 b).natAbs ≤ (s16 a).natAbs ∧
      0 ≤ s16 (div16 a b h) * s16 b * s16 a ∧
      (s16 a - s16 (div16 a b h) * s16 b).natAbs < (s16 b).natAbs)

/-- R125: the amount is not reduced modulo 16. A right shift by 15 or more leaves the sign alone, a left shift by 16 or more
leaves nothing, and the amount 0 leaves the value. -/
def Obligations.ShiftSaturates : Prop :=
  ∀ (a : Word) (n : Int),
    (15 ≤ n → sh16 a n = if s16 a < 0 then 0xFFFF else 0) ∧ (n ≤ -16 → sh16 a n = 0) ∧ (n = 0 → sh16 a n = a)

/-- R125: for the amounts from -15 to 15 the shifts are the arithmetic right shift and the left shift of the pattern. -/
def Obligations.ShiftMovesBits : Prop :=
  ∀ (a : Word) (n k : Nat), 1 ≤ n → n ≤ 15 → k < 16 →
    (sh16 a n).getLsbD k = (if k + n < 16 then a.getLsbD (k + n) else a.getLsbD 15) ∧
    (sh16 a (-(n : Int))).getLsbD k = (if k < n then false else a.getLsbD (k - n))

/-- R128: counter addition is modular and stays in range, also for a negative sum. -/
def Obligations.CounterAddIsModular : Prop :=
  ∀ (capacity c : Nat) (d : Int), 0 < capacity →
    ctrAdd capacity c d < capacity ∧ (ctrAdd capacity c d : Int) = ((c : Int) + d) % (capacity : Int)

/-- R129: the 16-bit delta and the unbounded sum give the same counter whenever the sum fits 16 bits, and for every sum when
65536 is a multiple of CAPACITY. -/
def Obligations.DeltaReadingsAgree : Prop :=
  ∀ (capacity c : Nat) (v imm : Word), 0 < capacity →
    (-32768 ≤ s16 v + s16 imm ∧ s16 v + s16 imm ≤ 32767) ∨ capacity ∣ 65536 →
    ctrAdd capacity c (s16 (add16 v imm)) = ctrAdd capacity c (s16 v + s16 imm)

/-- R126 and 92_eei_decisions.md D11: the exact comparison is the sign of the wrapped difference exactly when the difference
fits 16 bits. -/
def Obligations.CompReadingsAgreeExactlyInRange : Prop :=
  ∀ a b : Word,
    s16 (cmp16 a b) = (s16 (sub16 a b)).sign ↔ (-32768 ≤ s16 a - s16 b ∧ s16 a - s16 b ≤ 32767)

/-! ## What each instruction does (41_bitwise_shift.md to 45_branch.md) -/

/-- R140, R141, R142: `and`, `or`, `xor` are encoded with the tags 0, 1, 2, write the bitwise result, advance, and change nothing
else. -/
def Obligations.AndOrXorResults : Prop :=
  ∀ (reg1 reg2 reg3 : Reg) (s : State),
    (encode (.and reg1 reg2 reg3) = rWord 0 reg1 reg2 reg3 ∧
      exec (.and reg1 reg2 reg3) s = .next { s with
        regs := s.regs.set reg1 (s.reg reg2 &&& s.reg reg3), pc := (s.pc + 1) % s.capacity }) ∧
    (encode (.or reg1 reg2 reg3) = rWord 1 reg1 reg2 reg3 ∧
      exec (.or reg1 reg2 reg3) s = .next { s with
        regs := s.regs.set reg1 (s.reg reg2 ||| s.reg reg3), pc := (s.pc + 1) % s.capacity }) ∧
    (encode (.xor reg1 reg2 reg3) = rWord 2 reg1 reg2 reg3 ∧
      exec (.xor reg1 reg2 reg3) s = .next { s with
        regs := s.regs.set reg1 (s.reg reg2 ^^^ s.reg reg3), pc := (s.pc + 1) % s.capacity })

/-- R143: `not` writes the complement, the value `-n - 1`, whatever its ignored third field holds. -/
def Obligations.NotResult : Prop :=
  ∀ (reg1 reg2 reg3 : Reg) (s : State),
    encode (.not reg1 reg2 reg3) = rWord 3 reg1 reg2 reg3 ∧
    exec (.not reg1 reg2 reg3) s = .next { s with
      regs := s.regs.set reg1 (wrap16 (-s16 (s.reg reg2) - 1)), pc := (s.pc + 1) % s.capacity }

/-- R144: `sh` shifts right arithmetically by a positive amount and left by a negative one. -/
def Obligations.ShiftResult : Prop :=
  ∀ (reg1 reg2 reg3 : Reg) (s : State),
    encode (.sh reg1 reg2 reg3) = rWord 4 reg1 reg2 reg3 ∧
    exec (.sh reg1 reg2 reg3) s = .next { s with
      regs := s.regs.set reg1
        (if 0 ≤ s16 (s.reg reg3) then (s.reg reg2).sshiftRight (s16 (s.reg reg3)).toNat
          else s.reg reg2 <<< (-s16 (s.reg reg3)).toNat)
      pc := (s.pc + 1) % s.capacity }

/-- R150 to R152: `add`, `sub`, `mul` write the low sixteen bits of the exact result, advance, and change nothing else. -/
def Obligations.AddSubMulResults : Prop :=
  ∀ (reg1 reg2 reg3 : Reg) (s : State),
    (encode (.add reg1 reg2 reg3) = rWord 5 reg1 reg2 reg3 ∧
      exec (.add reg1 reg2 reg3) s = .next { s with
        regs := s.regs.set reg1 (s.reg reg2 + s.reg reg3), pc := (s.pc + 1) % s.capacity }) ∧
    (encode (.sub reg1 reg2 reg3) = rWord 6 reg1 reg2 reg3 ∧
      exec (.sub reg1 reg2 reg3) s = .next { s with
        regs := s.regs.set reg1 (s.reg reg2 - s.reg reg3), pc := (s.pc + 1) % s.capacity }) ∧
    (encode (.mul reg1 reg2 reg3) = rWord 7 reg1 reg2 reg3 ∧
      exec (.mul reg1 reg2 reg3) s = .next { s with
        regs := s.regs.set reg1 (s.reg reg2 * s.reg reg3), pc := (s.pc + 1) % s.capacity })

/-- R153: `div` halts with exit code 0x0001 on a zero divisor, writing nothing else, and otherwise writes the quotient
truncated toward zero. -/
def Obligations.DivResult : Prop :=
  ∀ (reg1 reg2 reg3 : Reg) (s : State),
    encode (.div reg1 reg2 reg3) = rWord 8 reg1 reg2 reg3 ∧
    (s.reg reg3 = 0 → exec (.div reg1 reg2 reg3) s = .next { s with run := .halted 0x0001 }) ∧
    (s.reg reg3 ≠ 0 → exec (.div reg1 reg2 reg3) s = .next { s with
      regs := s.regs.set reg1 (wrap16 ((s16 (s.reg reg2)).tdiv (s16 (s.reg reg3)))), pc := (s.pc + 1) % s.capacity })

/-- R154: `comp` writes 0x0001, 0xFFFF or 0x0000 for greater, less or equal. -/
def Obligations.CompResult : Prop :=
  ∀ (reg1 reg2 reg3 : Reg) (s : State),
    encode (.comp reg1 reg2 reg3) = rWord 9 reg1 reg2 reg3 ∧
    ∃ v : Word,
      exec (.comp reg1 reg2 reg3) s = .next { s with regs := s.regs.set reg1 v, pc := (s.pc + 1) % s.capacity } ∧
      (s16 (s.reg reg2) > s16 (s.reg reg3) → v = 0x0001) ∧
      (s16 (s.reg reg2) < s16 (s.reg reg3) → v = 0xFFFF) ∧
      (s.reg reg2 = s.reg reg3 → v = 0x0000)

/-- R160: `li` writes all sixteen bits of the immediate. -/
def Obligations.LiResult : Prop :=
  ∀ (reg2 : Reg) (imm : Word) (s : State),
    encode (.li reg2 imm) = iWord 10 reg2 imm ∧
    exec (.li reg2 imm) s = .next { s with regs := s.regs.set reg2 imm, pc := (s.pc + 1) % s.capacity }

/-- R161: `amc` moves `mc` by the signed value of the 16-bit sum and writes no register. -/
def Obligations.AmcResult : Prop :=
  ∀ (reg2 : Reg) (imm : Word) (s : State),
    encode (.amc reg2 imm) = iWord 11 reg2 imm ∧
    exec (.amc reg2 imm) s = .next { s with
      mc := (((s.mc : Int) + s16 (s.reg reg2 + imm)) % (s.capacity : Int)).toNat, pc := (s.pc + 1) % s.capacity }

/-- R162 with the address of R164: `lwmc` loads the word at `(mc + s16(imm)) mod CAPACITY`. -/
def Obligations.LwmcResult : Prop :=
  ∀ (reg2 : Reg) (imm : Word) (s : State), 0 < s.capacity →
    encode (.lwmc reg2 imm) = iWord 12 reg2 imm ∧
    exec (.lwmc reg2 imm) s = .next { s with
      regs := s.regs.set reg2 (s.mem.readWord (((s.mc : Int) + s16 imm) % (s.capacity : Int)).toNat)
      pc := (s.pc + 1) % s.capacity }

/-- R163 with the address of R164: `swmc` stores the register at `(mc + s16(imm)) mod CAPACITY`; that word reads back, every
other word is as before, and nothing else but `pc` changes. -/
def Obligations.SwmcResult : Prop :=
  ∀ (reg2 : Reg) (imm : Word) (s : State), 0 < s.capacity → s.mem.wf →
    encode (.swmc reg2 imm) = iWord 13 reg2 imm ∧
    ∃ t, exec (.swmc reg2 imm) s = .next t ∧
      t.mem.readWord (((s.mc : Int) + s16 imm) % (s.capacity : Int)).toNat = s.reg reg2 ∧
      (∀ a, a ≠ (((s.mc : Int) + s16 imm) % (s.capacity : Int)).toNat → t.mem.readWord a = s.mem.readWord a) ∧
      t.pc = (s.pc + 1) % s.capacity ∧
      t = { s with mem := t.mem, pc := t.pc }

/-- R170: `piu` with the device's answer `(vNew, exit)`: the register write, if any, and then either the halt with the exit
code, `pc` staying, or the advance. That the answer comes from a script, and what is kept of the call, is the model's
(notes/assumptions/6.md, 7.md). -/
def Obligations.PiuTakesScriptedAnswer : Prop :=
  ∀ (reg2 : Reg) (imm : Word) (s : State) (vNew exit : Option Word) (rest : List PeriphAnswer),
    s.periph.script = .returned vNew exit :: rest →
    encode (.piu reg2 imm) = iWord 14 reg2 imm ∧
    exec (.piu reg2 imm) s = .next { s with
      regs := match vNew with | some v => s.regs.set reg2 v | none => s.regs
      run := match exit with | some code => .halted code | none => s.run
      pc := match exit with | some _ => s.pc | none => (s.pc + 1) % s.capacity
      periph := { script := rest, calls := { cmd := imm, sel := reg2, v := s.reg reg2 } :: s.periph.calls } }

/-- R170, R171: `piu` takes an answer that no script gives, whatever the free value is (notes/assumptions/6.md, DESIGN CHOICE), as
it takes every answer. That a call past the script returns at all is the model's choice (notes/assumptions/8.md, DESIGN CHOICE,
unsafe for a claim of termination): the spec's device may hang there, and such a claim must assume that it answers (U2). -/
def Obligations.PiuCompletesOnFreeAnswer : Prop :=
  ∀ (reg2 : Reg) (imm : Word) (s : State), s.periph.script = [] →
    ∃ vNew exit : Option Word,
      exec (.piu reg2 imm) s = .next { s with
        regs := match vNew with | some v => s.regs.set reg2 v | none => s.regs
        run := match exit with | some code => .halted code | none => s.run
        pc := match exit with | some _ => s.pc | none => (s.pc + 1) % s.capacity
        periph := { script := [], calls := { cmd := imm, sel := reg2, v := s.reg reg2 } :: s.periph.calls } }

/-- R170: a device that never returns hangs the machine inside the cycle; the model answers its own fault
(notes/assumptions/8.md, DESIGN CHOICE). -/
def Obligations.PiuHangsWithItsDevice : Prop :=
  ∀ (reg2 : Reg) (imm : Word) (s : State) (rest : List PeriphAnswer),
    s.periph.script = .hang :: rest → exec (.piu reg2 imm) s = .fault .peripheralHang

/-- R180: `apceq` moves `pc` by the signed value of the 16-bit sum when all of `X` is zero, and otherwise steps by one. -/
def Obligations.ApceqResult : Prop :=
  ∀ (reg2 : Reg) (imm : Word) (s : State),
    encode (.apceq reg2 imm) = iWord 15 reg2 imm ∧
    exec (.apceq reg2 imm) s = .next { s with
      pc := if s.reg 15 = 0 then (((s.pc : Int) + s16 (s.reg reg2 + imm)) % (s.capacity : Int)).toNat
        else (s.pc + 1) % s.capacity }

/-! ## The memory port and the faults (20_memory.md, 60_exceptions.md) -/

/-- R55: a read inside memory returns the word, outside it the fault with the address. -/
def Obligations.MemReadPort : Prop :=
  ∀ (s : State) (addr : Int),
    s.memRead addr = if 0 ≤ addr ∧ addr < (s.capacity : Int) then .ok (s.mem.readWord addr.toNat)
      else .error (.memoryIndexError addr)

/-- R56: a write inside memory changes that cell alone, all its bits; outside memory it writes nothing. -/
def Obligations.MemWritePort : Prop :=
  ∀ (s : State) (addr : Int) (v : Word), s.mem.wf →
    (0 ≤ addr ∧ addr < (s.capacity : Int) →
      ∃ t, s.memWrite addr v = .ok t ∧ t.mem.readWord addr.toNat = v ∧
        (∀ a, a ≠ addr.toNat → t.mem.readWord a = s.mem.readWord a) ∧ t = { s with mem := t.mem }) ∧
    (¬ (0 ≤ addr ∧ addr < (s.capacity : Int)) → s.memWrite addr v = .error (.memoryIndexError addr))

/-- The model's choice for states that no run reaches, which no rule speaks of (entry 11, DEDUCED): with CAPACITY 0 or a counter
outside the range of R25, `lwmc`, `swmc` and the fetch go to the memory port, and the access outside memory aborts the run and
leaves everything else as it was. That the fault is the run state `aborted` is the model's choice too (entry 5, DESIGN CHOICE). -/
def Obligations.PortFaultsAbort : Prop :=
  ∀ s : State,
    (∀ reg2 imm, s.capacity ≤ s.ea imm →
      exec (.lwmc reg2 imm) s = .next { s with run := .aborted (.memoryIndexError (s.ea imm)) } ∧
      exec (.swmc reg2 imm) s = .next { s with run := .aborted (.memoryIndexError (s.ea imm)) }) ∧
    (s.run = .running → s.capacity ≤ s.pc →
      step s = .next { s with run := .aborted (.memoryIndexError s.pc) })

/-! ## The cycle (40_cycle_and_alu.md R110 to R116) -/

/-- R110 to R114: when the machine runs and the two bytes at `pc` decode to the instruction `i` and are no sentinel, the step
is `exec i` on that state; the advance of `pc` is the instruction's own. -/
def Obligations.StepRunsDecodedInstruction : Prop :=
  ∀ (s : State) (i : Instr) (b0 b1 : Byte), s.run = .running → s.pc < s.capacity →
    s.mem.readByte (2 * s.pc) = b0 → s.mem.readByte (2 * s.pc + 1) = b1 →
    wordOf b0 b1 ≠ 0x0000 → wordOf b0 b1 ≠ 0x0001 → decodeBytes [b0, b1] = .ok (i, []) →
    step s = exec i s

/-- R111: a sentinel at `pc` halts with itself as exit code, and nothing else changes. -/
def Obligations.SentinelHalts : Prop :=
  ∀ (s : State) (w : Word), s.run = .running → s.pc < s.capacity → s.mem.readWord s.pc = w →
    w = 0x0000 ∨ w = 0x0001 → step s = .next { s with run := .halted w }

/-- R116: once the run has ended no state changes. That the step answers the same state, and not no state, is the model's
(notes/assumptions/4.md, DEDUCED). -/
def Obligations.EndedRunStaysAsItIs : Prop :=
  ∀ s : State, s.run ≠ .running → step s = .next s

/-- Of the model's own `State.withFetchWord` (entry 10, DEDUCED), which stands for a load at `pc`: it stores a word there and
sets the run state to running, even on a machine whose run has ended. The next step runs a well-formed instruction so placed,
unless its word is a sentinel. -/
def Obligations.PlacedInstructionRunsNext : Prop :=
  ∀ (s : State) (i : Instr), s.mem.wf → s.pc < s.capacity → i.wf = true → encode i ≠ 0x0000 → encode i ≠ 0x0001 →
    step (s.withFetchWord 16 (encode i).toNat) = exec i (s.withFetchWord 16 (encode i).toNat)

/-! ## Reset and the invariant (10_state.md) -/

/-- R36: after reset every register and every memory cell is zero, `pc` is 0, `mc` is `floor(CAPACITY / 2)`, and the machine
runs. -/
def Obligations.ResetValues : Prop :=
  ∀ capacity : Nat,
    (∀ i, (State.resetOf capacity).reg i = 0x0000) ∧ (State.resetOf capacity).pc = 0 ∧
    (State.resetOf capacity).mc = capacity / 2 ∧ (∀ a, (State.resetOf capacity).mem.readWord a = 0x0000) ∧
    (State.resetOf capacity).run = .running

/-- R25, R36: the reset state of every capacity is safe, the model's own `State.reset` among them. -/
def Obligations.ResetIsSafe : Prop :=
  (∀ capacity : Nat, 0 < capacity → (State.resetOf capacity).Safe) ∧ State.reset.Safe

/-- R25, R26: every step keeps the counters in `[0, CAPACITY)` and the memory in canonical form and inside its cells. -/
def Obligations.StepKeepsInvariant : Prop :=
  ∀ s t : State, s.Inv → step s = .next t → t.Inv

/-- R51, R193, R194: no step of a safe state faults; `MemoryIndexError` and `UnknownOpcode` cannot be raised. -/
def Obligations.SafeStepRaisesNoFault : Prop :=
  ∀ s t : State, s.Safe → step s = .next t → t.Safe

/-- Every step of every state has a next state, unless the scripted device hangs. The rules say it of a cycle of a running machine
whose counters are in range: every word halts or is an instruction (R91), and no operation of the ALU is left without a result but the
division by zero, which halts (R120, R153). The rest is the model's: a call past the script returns (entry 8, DESIGN CHOICE,
where U2 lets the device hang), the step of a run that has ended answers the same state (entry 4, DEDUCED), and in a state that
no run reaches the access outside memory (entry 11, DEDUCED) is a next state whose run is aborted (entry 5, DESIGN CHOICE). -/
def Obligations.StepAnswersUnlessDeviceHangs : Prop :=
  ∀ s : State, s.periph.script.head? ≠ some .hang → ∃ t, step s = .next t

/-! ## Rules about the whole machine -/

/-- R31: the exit code is set in exactly three ways. -/
def Obligations.HaltHasThreeSources : Prop :=
  ∀ (s t : State) (code : Word), s.run = .running → step s = .next t → t.run = .halted code →
    ((code = 0x0000 ∨ code = 0x0001) ∧ s.mem.readWord s.pc = code) ∨
    (∃ reg1 reg2 reg3, s.fetch = .instr (.div reg1 reg2 reg3) ∧ s.reg reg3 = 0 ∧ code = 0x0001) ∨
    (∃ reg2 imm vNew, s.fetch = .instr (.piu reg2 imm) ∧
      s.periphAnswer { cmd := imm, sel := reg2, v := s.reg reg2 } = .returned vNew (some code))

/-- R23, R181: a step leaves `pc` when it ends the run, moves it to the branch target when it is a taken `apceq`, and otherwise
advances it by one, wrapping at the top. -/
def Obligations.PcMovesByRule : Prop :=
  ∀ s t : State, s.run = .running → step s = .next t →
    (t.run ≠ .running ∧ t.pc = s.pc) ∨
    (t.run = .running ∧ ∃ reg2 imm, s.fetch = .instr (.apceq reg2 imm) ∧ s.reg 15 = 0 ∧
      t.pc = (((s.pc : Int) + s16 (s.reg reg2 + imm)) % (s.capacity : Int)).toNat) ∨
    (t.run = .running ∧ (∀ reg2 imm, s.fetch = .instr (.apceq reg2 imm) → s.reg 15 ≠ 0) ∧
      t.pc = (s.pc + 1) % s.capacity)

/-- R24: only `amc` moves the memory counter. -/
def Obligations.OnlyAmcMovesMc : Prop :=
  ∀ s t : State, step s = .next t → t.mc ≠ s.mc →
    s.run = .running ∧ ∃ reg2 imm, s.fetch = .instr (.amc reg2 imm)

/-- R57: only `swmc` writes memory, and only the cell at its effective address. -/
def Obligations.OnlySwmcWritesMemory : Prop :=
  ∀ s t : State, step s = .next t → ∀ k, t.mem.readByte k ≠ s.mem.readByte k →
    s.run = .running ∧ ∃ reg2 imm, s.fetch = .instr (.swmc reg2 imm) ∧ (k = 2 * s.ea imm ∨ k = 2 * s.ea imm + 1)

/-- R22: a step changes no register but the destination of the instruction it runs. -/
def Obligations.OnlyDestinationRegisterChanges : Prop :=
  ∀ s t : State, step s = .next t → ∀ j, t.reg j ≠ s.reg j →
    s.run = .running ∧ ∃ i, s.fetch = .instr i ∧ i.dest = some j

/-- R35: CAPACITY does not change during a run. -/
def Obligations.CapacityNeverChanges : Prop :=
  ∀ s t : State, step s = .next t → t.capacity = s.capacity

/-- R73: a store to the address of the next instruction is what the next cycle fetches. -/
def Obligations.StoredWordIsFetchedNext : Prop :=
  ∀ (s t : State) (reg2 : Reg) (imm : Word) (i : Instr), s.Inv → s.run = .running →
    s.fetch = .instr (.swmc reg2 imm) → step s = .next t → s.ea imm = (s.pc + 1) % s.capacity →
    s.reg reg2 ≠ 0x0000 → s.reg reg2 ≠ 0x0001 → decode (s.reg reg2) = some i →
    step t = exec i t

/-- R172, R34: between two `piu` instructions nothing the device does is visible. A step that runs no `piu` does the same
whatever stands at the boundary, and leaves it alone. -/
def Obligations.DeviceInvisibleOutsidePiu : Prop :=
  ∀ (s t : State) (p : PeriphPort), (∀ reg2 imm, s.fetch ≠ .instr (.piu reg2 imm)) → step s = .next t →
    t.periph = s.periph ∧ step { s with periph := p } = .next { t with periph := p }

/-- R116, R190: a run loop that ends from a safe state ends in a halt, never in a fault, and in a safe state. -/
def Obligations.RunEndsOnlyByHalt : Prop :=
  ∀ (fuel : Nat) (s t : State), s.Safe → runLoop fuel s = .ended t → t.Safe ∧ ∃ code, t.run = .halted code

/-- R116: how a run ends does not depend on how much more fuel the loop is given. -/
def Obligations.RunEndIndependentOfFuel : Prop :=
  ∀ (fuel more : Nat) (s t : State), runLoop fuel s = .ended t → runLoop (fuel + more) s = .ended t

/-! ## The host's transactions (20_memory.md, 70_reset_and_hazards.md) -/

/-- R65: loading a stream of even length that fits and dumping at once gives the stream padded with zero bytes. -/
def Obligations.LoadThenDumpPads : Prop :=
  ∀ (capacity : Nat) (bytes : List Byte), 0 < capacity → bytes.length % 2 = 0 → bytes.length ≤ 2 * capacity →
    ∃ s, (State.resetOf capacity).loadProgram false bytes = .ok s ∧
      s.dumpBytes = bytes ++ List.replicate (2 * capacity - bytes.length) 0

/-- R221: the launch state has the image from address 0, zero above it, and every other field at its reset value. -/
def Obligations.LaunchStateHoldsImage : Prop :=
  ∀ (capacity : Nat) (script : List PeriphAnswer) (bytes : List Byte), 0 < capacity → bytes.length % 2 = 0 →
    bytes.length ≤ 2 * capacity →
    ∃ s, launch (2 * (capacity : Int)) script bytes = .ok s ∧ s.Safe ∧
      (∀ k b0 b1, bytes[2 * k]? = some b0 → bytes[2 * k + 1]? = some b1 → s.mem.readWord k = wordOf b0 b1) ∧
      (∀ k, bytes.length / 2 ≤ k → s.mem.readWord k = 0x0000) ∧
      s = { State.resetOf capacity with mem := s.mem, periph := { script := script, calls := [] } }

/-- R63, R196: a stream that is too long is a `MemoryOverflowError`, and one of odd length that fits is refused. -/
def Obligations.LoadRefusesBadStreams : Prop :=
  ∀ (capacity : Nat) (bytes : List Byte),
    (2 * capacity < bytes.length → (State.resetOf capacity).loadProgram false bytes = .error .memoryOverflowError) ∧
    (bytes.length ≤ 2 * capacity ∧ bytes.length % 2 = 1 →
      (State.resetOf capacity).loadProgram false bytes = .error .oddLength)

/-- R64, R222: while a started machine runs the host cannot dump; otherwise the dump has `2 * CAPACITY` bytes. That the host says
whether the run was started is the model's choice (entry 12, DESIGN CHOICE). -/
def Obligations.DumpOnlyOutsideRun : Prop :=
  ∀ s : State,
    (s.run = .running → s.dump true = none) ∧
    (s.run ≠ .running → ∃ bytes, s.dump true = some bytes ∧ bytes.length = 2 * s.capacity) ∧
    (∃ bytes, s.dump false = some bytes ∧ bytes.length = 2 * s.capacity)

/-- R222: the host has no move during the run. Once the run loop was started no load and no second start is accepted; while
it runs no reset, no dump and no reading; and a cycle keeps the run started, whatever state the program brings the machine to.
That the host's phase stands in a `Session` beside the machine is the model's choice (entry 12, DESIGN CHOICE). -/
def Obligations.HostHasNoMoveDuringRun : Prop :=
  ∀ x : Session, x.phase = .started →
    (∀ bytes, x.load bytes = .error .runStarted) ∧ x.start = .error .runStarted ∧
    (x.machine.run = .running →
      (∀ byteSize script, x.reset byteSize script = .error .duringRun) ∧ x.dump = none ∧ x.read = none) ∧
    (∀ y, x.cycle = .next y → y.phase = .started ∧ step x.machine = .next y.machine)

/-- R221, R222: the host's moves outside the run. A reset machine takes one stream that fits, and then no second one; the run
loop starts after the load and not before it, and until then no cycle is performed; the host reads the run state, the registers,
the counters and a dump of `2 * CAPACITY` bytes before the first cycle and when the run has ended, and may reset then. The
phases of a `Session` and the names of its refusals are the model's choice (entry 12, DESIGN CHOICE). -/
def Obligations.HostMovesOutsideRun : Prop :=
  ∀ x : Session,
    (∀ bytes, x.phase = .fresh → x.machine.isReset → bytes.length % 2 = 0 → bytes.length ≤ 2 * x.machine.capacity →
      ∃ y, x.load bytes = .ok y ∧ y.machine = { x.machine with mem := x.machine.mem.loadWords 0 bytes } ∧
        (∀ more, y.load more = .error .alreadyLoaded) ∧ y.start = .ok { y with phase := .started }) ∧
    (x.phase = .fresh → x.start = .error .notLoaded) ∧ (x.phase ≠ .started → x.cycle = .next x) ∧
    (x.phase ≠ .started ∨ x.machine.run ≠ .running →
      x.read = some { run := x.machine.run, regs := x.machine.regs, pc := x.machine.pc, mc := x.machine.mc } ∧
      (∃ bytes, x.dump = some bytes ∧ bytes.length = 2 * x.machine.capacity) ∧
      ∀ (capacity : Nat) (script : List PeriphAnswer), 0 < capacity →
        x.reset (2 * (capacity : Int)) script = .ok { phase := .fresh, machine :=
          { State.resetOf capacity with periph := { script := script, calls := [] } } })

/-- R195: construction fails with `InvalidSize` unless the byte size is a positive even number. -/
def Obligations.ConstructRefusesBadSizes : Prop :=
  (∀ byteSize : Int, byteSize ≤ 0 ∨ byteSize % 2 = 1 → construct byteSize = .error .invalidSize) ∧
  ∀ capacity : Nat, 0 < capacity → construct (2 * (capacity : Int)) = .ok (State.resetOf capacity)

/-! ## Frames: what a next state leaves unchanged -/

/-- R22, R27: the frame of the instructions that only write a register (`and`, `or`, `xor`, `not`, `sh`, `add`, `sub`, `mul`,
`comp`, `li`): every other register, `mc`, every byte of memory, the run state, CAPACITY and the device boundary. -/
def Obligations.RegisterResultFrame : Prop :=
  ∀ (rd r2 r3 : Reg) (imm : Word) (s t : State),
    (∃ i ∈ [Instr.and rd r2 r3, .or rd r2 r3, .xor rd r2 r3, .not rd r2 r3, .sh rd r2 r3, .add rd r2 r3, .sub rd r2 r3,
      .mul rd r2 r3, .comp rd r2 r3, .li rd imm], exec i s = .next t) →
    (∀ j, j ≠ rd → t.reg j = s.reg j) ∧ t.mc = s.mc ∧ (∀ k, t.mem.readByte k = s.mem.readByte k) ∧
    t.run = s.run ∧ t.capacity = s.capacity ∧ t.periph = s.periph

/-- R153, R162: the frame of `div` and `lwmc`: every register but the destination, `mc`, every byte of memory, CAPACITY and the
device boundary; the run state too unless the divisor is zero or the address is outside memory. -/
def Obligations.DivLwmcFrame : Prop :=
  ∀ (rd r2 r3 : Reg) (imm : Word) (s t : State),
    (exec (.div rd r2 r3) s = .next t ∨ exec (.lwmc rd imm) s = .next t) →
    (∀ j, j ≠ rd → t.reg j = s.reg j) ∧ t.mc = s.mc ∧ (∀ k, t.mem.readByte k = s.mem.readByte k) ∧
    (s.reg r3 ≠ 0 → s.ea imm < s.capacity → t.run = s.run) ∧ t.capacity = s.capacity ∧ t.periph = s.periph

/-- R161, R180: the frame of `amc` and `apceq`: every register, every byte of memory, the run state, CAPACITY, the device
boundary, and for `apceq` the memory counter. -/
def Obligations.CounterInstructionFrame : Prop :=
  ∀ (r : Reg) (imm : Word) (s t : State),
    (exec (.amc r imm) s = .next t ∨ exec (.apceq r imm) s = .next t) →
    (∀ j, t.reg j = s.reg j) ∧ (∀ k, t.mem.readByte k = s.mem.readByte k) ∧ t.run = s.run ∧
    t.capacity = s.capacity ∧ t.periph = s.periph ∧ (exec (.apceq r imm) s = .next t → t.mc = s.mc)

/-- R163: the frame of `swmc`: every register, `mc`, CAPACITY, the device boundary, every byte of memory but the two of the
cell at the effective address, and the run state when that address is inside memory. -/
def Obligations.SwmcFrame : Prop :=
  ∀ (r : Reg) (imm : Word) (s t : State), exec (.swmc r imm) s = .next t →
    (∀ j, t.reg j = s.reg j) ∧ t.mc = s.mc ∧ t.capacity = s.capacity ∧ t.periph = s.periph ∧
    (∀ a, s.ea imm = a → ∀ k, k ≠ 2 * a → k ≠ 2 * a + 1 → t.mem.readByte k = s.mem.readByte k) ∧
    (s.ea imm < s.capacity → t.run = s.run)

/-- R172: the frame of `piu`: every register but the named one, `mc`, every byte of memory and CAPACITY; it raises no fault,
and `pc` stays or advances by one. -/
def Obligations.PiuFrame : Prop :=
  ∀ (r : Reg) (imm : Word) (s t : State), exec (.piu r imm) s = .next t →
    (∀ j, j ≠ r → t.reg j = s.reg j) ∧ t.mc = s.mc ∧ (∀ k, t.mem.readByte k = s.mem.readByte k) ∧
    t.capacity = s.capacity ∧ (t.run = s.run ∧ t.pc = (s.pc + 1) % s.capacity ∨ (∃ code, t.run = .halted code) ∧ t.pc = s.pc)
end

