-- ==== Sys2Proof/Laws/State.lean ====
section
/-!
SUPPORT. What each update of the state leaves in each field: one lemma per field per update, so that no later proof unfolds a
record update.
-/

namespace Sys2Proof.Machine

variable (s : State)


/-! ### `setReg` -/

@[simp] theorem State.setReg_capacity (i : Reg) (v : Word) : (s.setReg i v).capacity = s.capacity := rfl
@[simp] theorem State.setReg_regs (i : Reg) (v : Word) : (s.setReg i v).regs = s.regs.set i v := rfl
@[simp] theorem State.setReg_pc (i : Reg) (v : Word) : (s.setReg i v).pc = s.pc := rfl
@[simp] theorem State.setReg_mc (i : Reg) (v : Word) : (s.setReg i v).mc = s.mc := rfl
@[simp] theorem State.setReg_mem (i : Reg) (v : Word) : (s.setReg i v).mem = s.mem := rfl
@[simp] theorem State.setReg_run (i : Reg) (v : Word) : (s.setReg i v).run = s.run := rfl
@[simp] theorem State.setReg_periph (i : Reg) (v : Word) : (s.setReg i v).periph = s.periph := rfl

/-! ### `movePc` -/

@[simp] theorem State.movePc_capacity (d : Int) : (s.movePc d).capacity = s.capacity := rfl
@[simp] theorem State.movePc_regs (d : Int) : (s.movePc d).regs = s.regs := rfl
@[simp] theorem State.movePc_pc (d : Int) : (s.movePc d).pc = ctrAdd s.capacity s.pc d := rfl
@[simp] theorem State.movePc_mc (d : Int) : (s.movePc d).mc = s.mc := rfl
@[simp] theorem State.movePc_mem (d : Int) : (s.movePc d).mem = s.mem := rfl
@[simp] theorem State.movePc_run (d : Int) : (s.movePc d).run = s.run := rfl
@[simp] theorem State.movePc_periph (d : Int) : (s.movePc d).periph = s.periph := rfl
@[simp] theorem State.movePc_reg (d : Int) (j : Reg) : (s.movePc d).reg j = s.reg j := rfl

/-! ### `moveMc` -/

@[simp] theorem State.moveMc_capacity (d : Int) : (s.moveMc d).capacity = s.capacity := rfl
@[simp] theorem State.moveMc_regs (d : Int) : (s.moveMc d).regs = s.regs := rfl
@[simp] theorem State.moveMc_pc (d : Int) : (s.moveMc d).pc = s.pc := rfl
@[simp] theorem State.moveMc_mc (d : Int) : (s.moveMc d).mc = ctrAdd s.capacity s.mc d := rfl
@[simp] theorem State.moveMc_mem (d : Int) : (s.moveMc d).mem = s.mem := rfl
@[simp] theorem State.moveMc_run (d : Int) : (s.moveMc d).run = s.run := rfl
@[simp] theorem State.moveMc_periph (d : Int) : (s.moveMc d).periph = s.periph := rfl
@[simp] theorem State.moveMc_reg (d : Int) (j : Reg) : (s.moveMc d).reg j = s.reg j := rfl

/-! ### `advance` -/

@[simp] theorem State.advance_capacity : (s.advance).capacity = s.capacity := rfl
@[simp] theorem State.advance_regs : (s.advance).regs = s.regs := rfl
@[simp] theorem State.advance_pc : (s.advance).pc = ctrAdd s.capacity s.pc 1 := rfl
@[simp] theorem State.advance_mc : (s.advance).mc = s.mc := rfl
@[simp] theorem State.advance_mem : (s.advance).mem = s.mem := rfl
@[simp] theorem State.advance_run : (s.advance).run = s.run := rfl
@[simp] theorem State.advance_periph : (s.advance).periph = s.periph := rfl
@[simp] theorem State.advance_reg (j : Reg) : (s.advance).reg j = s.reg j := rfl

/-! ### `writeNext` -/

@[simp] theorem State.writeNext_capacity (i : Reg) (v : Word) : (s.writeNext i v).capacity = s.capacity := rfl
@[simp] theorem State.writeNext_regs (i : Reg) (v : Word) : (s.writeNext i v).regs = s.regs.set i v := rfl
@[simp] theorem State.writeNext_pc (i : Reg) (v : Word) : (s.writeNext i v).pc = ctrAdd s.capacity s.pc 1 := rfl
@[simp] theorem State.writeNext_mc (i : Reg) (v : Word) : (s.writeNext i v).mc = s.mc := rfl
@[simp] theorem State.writeNext_mem (i : Reg) (v : Word) : (s.writeNext i v).mem = s.mem := rfl
@[simp] theorem State.writeNext_run (i : Reg) (v : Word) : (s.writeNext i v).run = s.run := rfl
@[simp] theorem State.writeNext_periph (i : Reg) (v : Word) : (s.writeNext i v).periph = s.periph := rfl

/-! ### `halt` -/

@[simp] theorem State.halt_capacity (code : Word) : (s.halt code).capacity = s.capacity := rfl
@[simp] theorem State.halt_regs (code : Word) : (s.halt code).regs = s.regs := rfl
@[simp] theorem State.halt_pc (code : Word) : (s.halt code).pc = s.pc := rfl
@[simp] theorem State.halt_mc (code : Word) : (s.halt code).mc = s.mc := rfl
@[simp] theorem State.halt_mem (code : Word) : (s.halt code).mem = s.mem := rfl
@[simp] theorem State.halt_run (code : Word) : (s.halt code).run = .halted code := rfl
@[simp] theorem State.halt_periph (code : Word) : (s.halt code).periph = s.periph := rfl
@[simp] theorem State.halt_reg (code : Word) (j : Reg) : (s.halt code).reg j = s.reg j := rfl

/-! ### `raise` -/

@[simp] theorem State.raise_capacity (cause : EngineFault) : (s.raise cause).capacity = s.capacity := rfl
@[simp] theorem State.raise_regs (cause : EngineFault) : (s.raise cause).regs = s.regs := rfl
@[simp] theorem State.raise_pc (cause : EngineFault) : (s.raise cause).pc = s.pc := rfl
@[simp] theorem State.raise_mc (cause : EngineFault) : (s.raise cause).mc = s.mc := rfl
@[simp] theorem State.raise_mem (cause : EngineFault) : (s.raise cause).mem = s.mem := rfl
@[simp] theorem State.raise_run (cause : EngineFault) : (s.raise cause).run = .aborted cause := rfl
@[simp] theorem State.raise_periph (cause : EngineFault) : (s.raise cause).periph = s.periph := rfl
@[simp] theorem State.raise_reg (cause : EngineFault) (j : Reg) : (s.raise cause).reg j = s.reg j := rfl

/-! ### `recordCall` -/

@[simp] theorem State.recordCall_capacity (c : PeriphCall) : (s.recordCall c).capacity = s.capacity := rfl
@[simp] theorem State.recordCall_regs (c : PeriphCall) : (s.recordCall c).regs = s.regs := rfl
@[simp] theorem State.recordCall_pc (c : PeriphCall) : (s.recordCall c).pc = s.pc := rfl
@[simp] theorem State.recordCall_mc (c : PeriphCall) : (s.recordCall c).mc = s.mc := rfl
@[simp] theorem State.recordCall_mem (c : PeriphCall) : (s.recordCall c).mem = s.mem := rfl
@[simp] theorem State.recordCall_run (c : PeriphCall) : (s.recordCall c).run = s.run := rfl
@[simp] theorem State.recordCall_periph (c : PeriphCall) : (s.recordCall c).periph = { script := s.periph.script.tail, calls := c :: s.periph.calls } := rfl
@[simp] theorem State.recordCall_reg (c : PeriphCall) (j : Reg) : (s.recordCall c).reg j = s.reg j := rfl

/-! ### Registers after a write (10_state.md R20, R22) -/

@[simp] theorem State.reg_setReg_same (i : Reg) (v : Word) : (s.setReg i v).reg i = v := by
  simp [State.reg, State.setReg]

theorem State.reg_setReg_ne (i j : Reg) (v : Word) (h : j ≠ i) : (s.setReg i v).reg j = s.reg j := by
  have hv : (i : Nat) ≠ (j : Nat) := fun e => h (Fin.ext e.symm)
  simp [State.reg, State.setReg, hv]

@[simp] theorem State.reg_writeNext_same (i : Reg) (v : Word) : (s.writeNext i v).reg i = v :=
  s.reg_setReg_same i v

theorem State.reg_writeNext_ne (i j : Reg) (v : Word) (h : j ≠ i) : (s.writeNext i v).reg j = s.reg j :=
  s.reg_setReg_ne i j v h

end Sys2Proof.Machine
end

