-- ==== Sys2Proof/Laws/Exec.lean ====
section
/-!
SUPPORT. What the shared operations, the dispatcher and the step can do: one inversion lemma each, to be cited in place of
unfolding them.
-/

namespace Sys2Proof.Machine

/-! ### Counters -/

theorem ctrAdd_lt {capacity : Nat} (h : 0 < capacity) (c : Nat) (d : Int) : ctrAdd capacity c d < capacity := by
  have h1 := Int.emod_nonneg ((c : Int) + d) (b := (capacity : Int)) (by omega)
  have h2 := Int.emod_lt_of_pos ((c : Int) + d) (b := (capacity : Int)) (by omega)
  unfold ctrAdd
  omega

/-- The sequential advance, for every modulus. -/
theorem ctrAdd_one (capacity c : Nat) : ctrAdd capacity c 1 = (c + 1) % capacity := by
  unfold ctrAdd
  norm_cast

/-! ### The memory port -/

theorem State.memRead_ok {s : State} {addr : Int} (h : s.inMemory addr) :
    s.memRead addr = .ok (s.mem.readWord addr.toNat) := if_pos h

theorem State.memRead_error {s : State} {addr : Int} (h : ¬ s.inMemory addr) :
    s.memRead addr = .error (.memoryIndexError addr) := if_neg h

theorem State.memWrite_ok {s : State} {addr : Int} (h : s.inMemory addr) (v : Word) :
    s.memWrite addr v = .ok { s with mem := s.mem.writeWord addr.toNat v } := if_pos h

theorem State.memWrite_error {s : State} {addr : Int} (h : ¬ s.inMemory addr) (v : Word) :
    s.memWrite addr v = .error (.memoryIndexError addr) := if_neg h

theorem State.inMemory_natCast {s : State} {a : Nat} : s.inMemory (a : Int) ↔ a < s.capacity := by
  simp [State.inMemory]

theorem State.ea_inMemory {s : State} (h : 0 < s.capacity) (imm : Word) : s.inMemory (s.ea imm : Int) :=
  State.inMemory_natCast.mpr (ctrAdd_lt h _ _)

/-! ### The peripheral -/

theorem State.takeAnswer_capacity (s : State) (r : Reg) (v e : Option Word) : (s.takeAnswer r v e).capacity = s.capacity := by
  cases v <;> cases e <;> rfl

theorem State.takeAnswer_mc (s : State) (r : Reg) (v e : Option Word) : (s.takeAnswer r v e).mc = s.mc := by
  cases v <;> cases e <;> rfl

theorem State.takeAnswer_mem (s : State) (r : Reg) (v e : Option Word) : (s.takeAnswer r v e).mem = s.mem := by
  cases v <;> cases e <;> rfl

theorem State.takeAnswer_periph (s : State) (r : Reg) (v e : Option Word) : (s.takeAnswer r v e).periph = s.periph := by
  cases v <;> cases e <;> rfl

theorem State.takeAnswer_pc (s : State) (r : Reg) (v e : Option Word) :
    (s.takeAnswer r v e).pc = if e.isSome then s.pc else ctrAdd s.capacity s.pc 1 := by
  cases v <;> cases e <;> rfl

theorem State.takeAnswer_run (s : State) (r : Reg) (v e : Option Word) :
    (s.takeAnswer r v e).run = match e with | some code => .halted code | none => s.run := by
  cases v <;> cases e <;> rfl

theorem State.takeAnswer_reg_ne (s : State) (r j : Reg) (v e : Option Word) (h : j ≠ r) :
    (s.takeAnswer r v e).reg j = s.reg j := by
  cases v <;> cases e <;> first | rfl | exact s.reg_setReg_ne r j _ h

/-! ### The dispatcher -/

/-- Every next state an instruction can answer: its result written, a halt, a counter moved, a cell stored, a branch taken or
not, the device's answer taken, or the fault of the memory port. -/
theorem exec_next_cases {i : Instr} {s t : State} (h : exec i s = .next t) :
    (∃ rd v, i.dest = some rd ∧ (∀ r imm, i ≠ .piu r imm) ∧ t = s.writeNext rd v) ∨
    (∃ r1 r2 r3, i = .div r1 r2 r3 ∧ s.reg r3 = 0 ∧ t = s.halt exitDivZero) ∨
    (∃ r imm, i = .amc r imm ∧ t = (s.moveMc (s.delta r imm)).advance) ∨
    (∃ r imm, i = .swmc r imm ∧ s.ea imm < s.capacity ∧
      t = State.advance { s with mem := s.mem.writeWord (s.ea imm) (s.reg r) }) ∨
    (∃ r imm, i = .apceq r imm ∧ s.reg regX = 0 ∧ t = s.movePc (s.delta r imm)) ∨
    (∃ r imm, i = .apceq r imm ∧ s.reg regX ≠ 0 ∧ t = s.advance) ∨
    (∃ r imm v e, i = .piu r imm ∧ s.periphAnswer ⟨imm, r, s.reg r⟩ = .returned v e ∧
      t = (s.recordCall ⟨imm, r, s.reg r⟩).takeAnswer r v e) ∨
    (∃ r imm, (i = .lwmc r imm ∨ i = .swmc r imm) ∧ ¬ s.ea imm < s.capacity ∧
      t = s.raise (.memoryIndexError (s.ea imm))) := by
  cases i with
  | and | or | xor | not | sh | add | sub | mul | comp | li =>
    exact .inl ⟨_, _, rfl, by simp, (Host.Outcome.next.inj h).symm⟩
  | div r1 r2 r3 =>
    simp only [exec, execDiv] at h
    split at h
    · rename_i hz
      exact .inr (.inl ⟨r1, r2, r3, rfl, hz, (Host.Outcome.next.inj h).symm⟩)
    · exact .inl ⟨_, _, rfl, by simp, (Host.Outcome.next.inj h).symm⟩
  | amc r imm => exact .inr (.inr (.inl ⟨r, imm, rfl, (Host.Outcome.next.inj h).symm⟩))
  | lwmc r imm =>
    by_cases hm : s.ea imm < s.capacity
    · simp only [exec, execLwmc, State.memRead_ok (State.inMemory_natCast.mpr hm)] at h
      exact .inl ⟨_, _, rfl, by simp, (Host.Outcome.next.inj h).symm⟩
    · simp only [exec, execLwmc, State.memRead_error (mt State.inMemory_natCast.mp hm)] at h
      exact .inr (.inr (.inr (.inr (.inr (.inr (.inr
        ⟨r, imm, .inl rfl, hm, (Host.Outcome.next.inj h).symm⟩))))))
  | swmc r imm =>
    by_cases hm : s.ea imm < s.capacity
    · simp only [exec, execSwmc, State.memWrite_ok (State.inMemory_natCast.mpr hm)] at h
      exact .inr (.inr (.inr (.inl ⟨r, imm, rfl, hm, (Host.Outcome.next.inj h).symm⟩)))
    · simp only [exec, execSwmc, State.memWrite_error (mt State.inMemory_natCast.mp hm)] at h
      exact .inr (.inr (.inr (.inr (.inr (.inr (.inr
        ⟨r, imm, .inr rfl, hm, (Host.Outcome.next.inj h).symm⟩))))))
  | piu r imm =>
    simp only [exec, execPiu] at h
    split at h
    · rename_i v e ha
      exact .inr (.inr (.inr (.inr (.inr (.inr (.inl
        ⟨r, imm, v, e, rfl, ha, (Host.Outcome.next.inj h).symm⟩))))))
    · cases h
  | apceq r imm =>
    simp only [exec, execApceq] at h
    split at h
    · rename_i hz
      exact .inr (.inr (.inr (.inr (.inl ⟨r, imm, rfl, hz, (Host.Outcome.next.inj h).symm⟩))))
    · rename_i hz
      exact .inr (.inr (.inr (.inr (.inr (.inl ⟨r, imm, rfl, hz, (Host.Outcome.next.inj h).symm⟩)))))

/-! ### Fetch and step -/

/-- A fetch inside memory: the sentinels first, then the table of handlers. -/
theorem State.fetch_of_lt {s : State} (h : s.pc < s.capacity) :
    s.fetch = if s.mem.readWord s.pc ∈ sentinels then .sentinel (s.mem.readWord s.pc)
      else match decode (s.mem.readWord s.pc) with
        | some i => .instr i
        | none => .fault (.unknownOpcode (s.mem.readWord s.pc)) := by
  have hm : s.memRead s.pc = .ok (s.mem.readWord s.pc) := State.memRead_ok (State.inMemory_natCast.mpr h)
  exact congrArg (fun r : Except EngineFault Word => match r with
    | .error cause => Fetched.fault cause
    | .ok w =>
      if w ∈ sentinels then Fetched.sentinel w
      else match decode w with
        | some i => Fetched.instr i
        | none => Fetched.fault (.unknownOpcode w)) hm

theorem mem_sentinels {w : Word} : w ∈ sentinels ↔ w = 0x0000 ∨ w = 0x0001 := by
  simp [sentinels, exitNoInstructions, exitDivZero]

/-- A word inside memory that is no sentinel goes on to its handler. -/
theorem State.fetch_instr {s : State} {i : Instr} (h : s.pc < s.capacity) (h0 : s.mem.readWord s.pc ≠ 0x0000)
    (h1 : s.mem.readWord s.pc ≠ 0x0001) (hd : decode (s.mem.readWord s.pc) = some i) : s.fetch = .instr i := by
  rw [State.fetch_of_lt h, if_neg (mt mem_sentinels.mp (not_or.mpr ⟨h0, h1⟩)), hd]

/-- The three ways a fetch can go, each with what it says of the word at `pc`. -/
theorem State.fetch_cases (s : State) :
    (¬ s.pc < s.capacity ∧ s.fetch = .fault (.memoryIndexError s.pc)) ∨
    (s.pc < s.capacity ∧ s.mem.readWord s.pc ∈ sentinels ∧ s.fetch = .sentinel (s.mem.readWord s.pc)) ∨
    (s.pc < s.capacity ∧ s.mem.readWord s.pc ∉ sentinels ∧
      ((∃ i, decode (s.mem.readWord s.pc) = some i ∧ s.fetch = .instr i) ∨
        decode (s.mem.readWord s.pc) = none ∧ s.fetch = .fault (.unknownOpcode (s.mem.readWord s.pc)))) := by
  by_cases h : s.pc < s.capacity
  · refine .inr ?_
    rw [State.fetch_of_lt h]
    by_cases hs : s.mem.readWord s.pc ∈ sentinels
    · exact .inl ⟨h, hs, if_pos hs⟩
    · refine .inr ⟨h, hs, ?_⟩
      rw [if_neg hs]
      cases hd : decode (s.mem.readWord s.pc) with
      | none => exact .inr ⟨rfl, rfl⟩
      | some i => exact .inl ⟨i, rfl, rfl⟩
  · exact .inl ⟨h, by simp only [State.fetch, State.memRead_error (mt State.inMemory_natCast.mp h)]⟩

theorem step_of_fault {s : State} {cause : EngineFault} (hr : s.run = .running) (hf : s.fetch = .fault cause) :
    step s = .next (s.raise cause) := by simp only [step, hr, hf]

theorem step_of_sentinel {s : State} {code : Word} (hr : s.run = .running) (hf : s.fetch = .sentinel code) :
    step s = .next (s.halt code) := by simp only [step, hr, hf]

theorem step_of_instr {s : State} {i : Instr} (hr : s.run = .running) (hf : s.fetch = .instr i) :
    step s = exec i s := by simp only [step, hr, hf]

/-- Every next state a step can answer. -/
theorem step_next_cases {s t : State} (h : step s = .next t) :
    (s.run ≠ .running ∧ t = s) ∨
    (s.run = .running ∧ ∃ cause, s.fetch = .fault cause ∧ t = s.raise cause) ∨
    (s.run = .running ∧ ∃ code, s.fetch = .sentinel code ∧ t = s.halt code) ∨
    (s.run = .running ∧ ∃ i, s.fetch = .instr i ∧ exec i s = .next t) := by
  unfold step at h
  split at h
  · rename_i hr
    split at h
    · rename_i cause hf
      exact .inr (.inl ⟨hr, cause, hf, (Host.Outcome.next.inj h).symm⟩)
    · rename_i code hf
      exact .inr (.inr (.inl ⟨hr, code, hf, (Host.Outcome.next.inj h).symm⟩))
    · rename_i i hf
      exact .inr (.inr (.inr ⟨hr, i, hf, h⟩))
  · rename_i hr
    exact .inl ⟨by simp [hr], (Host.Outcome.next.inj h).symm⟩
  · rename_i hr
    exact .inl ⟨by simp [hr], (Host.Outcome.next.inj h).symm⟩

end Sys2Proof.Machine
end

