-- ==== Sys2Proof/Laws/Host.lean ====
section
/-!
SUPPORT. What the host's transactions can do: one lemma each, to be cited in place of unfolding them
(spec/20_memory.md R63, R64, 70_reset_and_hazards.md R220 to R222).
-/

namespace Sys2Proof.Machine

/-- All that a load that succeeds asks for and does. -/
theorem State.loadProgram_ok_iff {s t : State} {started : Bool} {bytes : List Byte} :
    s.loadProgram started bytes = .ok t ↔ started = false ∧ s.isReset ∧ bytes.length ≤ 2 * s.capacity ∧
      bytes.length % 2 = 0 ∧ { s with mem := s.mem.loadWords 0 bytes } = t := by
  cases started with
  | true => simp [State.loadProgram]
  | false =>
    by_cases hr : s.isReset
    · rw [State.loadProgram, if_neg Bool.false_ne_true, if_neg (not_not.mpr hr)]
      constructor
      · intro h
        split at h
        · cases h
        · split at h
          · cases h
          · exact ⟨rfl, hr, by omega, by omega, Except.ok.inj h⟩
      · rintro ⟨-, -, hl, he, rfl⟩
        rw [if_neg (by omega), if_neg (by omega)]
    · rw [State.loadProgram, if_neg Bool.false_ne_true, if_pos hr]
      exact ⟨nofun, fun h => absurd h.2.1 hr⟩

theorem Session.isStarted_iff {x : Session} : x.isStarted = true ↔ x.phase = .started := by
  simp [Session.isStarted]

/-- A session's load succeeds on a fresh session alone, as the machine's load does, and answers a loaded one. -/
theorem Session.load_ok {x y : Session} {bytes : List Byte} (h : x.load bytes = .ok y) :
    x.phase = .fresh ∧ y.phase = .loaded ∧ x.machine.loadProgram false bytes = .ok y.machine := by
  obtain ⟨p, s⟩ := x
  cases p <;> simp only [Session.load, Session.isStarted] at h
  case fresh =>
    cases hl : s.loadProgram false bytes <;> simp_all
    exact h ▸ ⟨rfl, rfl⟩
  case loaded => simp at h
  case started => simp [State.loadProgram] at h

theorem Session.start_ok {x y : Session} (h : x.start = .ok y) : x.phase = .loaded ∧ y = { x with phase := .started } := by
  obtain ⟨p, s⟩ := x
  cases p <;> simp_all [Session.start]

/-- A cycle that answers a next session is a step of the started machine, or none at all. -/
theorem Session.cycle_next {x y : Session} (h : x.cycle = .next y) :
    (x.phase = .started ∧ y.phase = .started ∧ step x.machine = .next y.machine) ∨ (x.phase ≠ .started ∧ y = x) := by
  obtain ⟨p, s⟩ := x
  cases p <;> simp only [Session.cycle] at h
  case fresh => exact .inr ⟨by simp, by simpa using h.symm⟩
  case loaded => exact .inr ⟨by simp, by simpa using h.symm⟩
  case started =>
    cases hs : step s <;> simp_all
    exact h ▸ ⟨rfl, rfl⟩

end Sys2Proof.Machine
end

