-- ==== Sys2Proof/Laws/Memory.lean ====
section
/-!
SUPPORT. Memory: every operation keeps the canonical form and the bound of the listed places, a read after a write gives the
value written, and a write leaves every other byte alone (spec/20_memory.md R55, R56, R60).
-/

namespace Sys2Proof.Machine

/-! ### Bytes -/

theorem Memory.readByte_eq_of_forall_ne {m : Memory} {k : Nat} (h : ∀ c ∈ m, c.1 ≠ k) : m.readByte k = unlistedByte := by
  induction m with
  | nil => rfl
  | cons c rest ih =>
    have hc : c.1 ≠ k := h c (by simp)
    simp only [Memory.readByte, hc, if_false]
    exact ih fun d hd => h d (by simp [hd])

theorem Memory.mem_cons_iff {k : Nat} {b : Byte} {rest : Memory} {c : Host.Cell} :
    c ∈ Memory.cons k b rest ↔ (b ≠ unlistedByte ∧ c = (k, b)) ∨ c ∈ rest := by
  unfold Memory.cons
  split <;> simp_all

/-- What a write lists: the new byte, unless it is the unlisted one, and entries that stood there. -/
theorem Memory.mem_writeByte {m : Memory} {k : Nat} {b : Byte} {c : Host.Cell} (h : c ∈ m.writeByte k b) :
    (b ≠ unlistedByte ∧ c = (k, b)) ∨ c ∈ m := by
  induction m with
  | nil => simpa [Memory.writeByte, Memory.mem_cons_iff] using h
  | cons d rest ih =>
    obtain ⟨a, x⟩ := d
    simp only [Memory.writeByte] at h
    split at h
    · simpa [Memory.mem_cons_iff] using h
    · split at h
      · rcases Memory.mem_cons_iff.mp h with h | h
        · exact .inl h
        · exact .inr (by simp [h])
      · rcases List.mem_cons.mp h with h | h
        · exact .inr (by simp [h])
        · rcases ih h with h | h
          · exact .inl h
          · exact .inr (by simp [h])

theorem Memory.cons_wf {k : Nat} {b : Byte} {rest : Memory} (h : rest.wf) (hk : ∀ c ∈ rest, k < c.1) :
    (Memory.cons k b rest).wf := by
  unfold Memory.cons
  split
  · exact h
  · rename_i hb
    refine ⟨List.pairwise_cons.mpr ⟨hk, h.1⟩, fun c hc => ?_⟩
    rcases List.mem_cons.mp hc with rfl | hc
    · exact hb
    · exact h.2 c hc

theorem Memory.tail_wf {c : Host.Cell} {rest : Memory} (h : Memory.wf (c :: rest)) : Memory.wf rest :=
  ⟨(List.pairwise_cons.mp h.1).2, fun d hd => h.2 d (by simp [hd])⟩

/-- A write keeps the canonical form. -/
theorem Memory.writeByte_wf {m : Memory} (h : m.wf) (k : Nat) (b : Byte) : (m.writeByte k b).wf := by
  induction m with
  | nil => exact Memory.cons_wf h (by simp)
  | cons d rest ih =>
    obtain ⟨a, x⟩ := d
    have hrest := (List.pairwise_cons.mp h.1).1
    have htail := Memory.tail_wf h
    simp only [Memory.writeByte]
    split
    · rename_i hka
      refine Memory.cons_wf h fun c hc => ?_
      rcases List.mem_cons.mp hc with rfl | hc
      · exact hka
      · exact lt_trans hka (hrest c hc)
    · split
      · rename_i hka
        exact Memory.cons_wf htail fun c hc => hka ▸ hrest c hc
      · rename_i hle hne
        have hax : a < k := by omega
        refine ⟨List.pairwise_cons.mpr ⟨fun c hc => ?_, (ih htail).1⟩, fun c hc => ?_⟩
        · rcases Memory.mem_writeByte hc with ⟨_, rfl⟩ | hc
          · exact hax
          · exact hrest c hc
        · rcases List.mem_cons.mp hc with rfl | hc
          · exact h.2 _ (by simp)
          · exact (ih htail).2 c hc

theorem Memory.readByte_cons_same {k : Nat} {b : Byte} {rest : Memory} (h : ∀ c ∈ rest, c.1 ≠ k) :
    (Memory.cons k b rest).readByte k = b := by
  unfold Memory.cons
  split
  · rename_i hb
    rw [Memory.readByte_eq_of_forall_ne h, hb]
  · simp [Memory.readByte]

theorem Memory.readByte_cons_ne {k j : Nat} {b : Byte} {rest : Memory} (h : j ≠ k) :
    (Memory.cons k b rest).readByte j = rest.readByte j := by
  unfold Memory.cons
  split
  · rfl
  · simp [Memory.readByte, h.symm]

/-- A read after a write to the same place gives the byte written. -/
theorem Memory.readByte_writeByte_same {m : Memory} (h : m.wf) (k : Nat) (b : Byte) :
    (m.writeByte k b).readByte k = b := by
  induction m with
  | nil => exact Memory.readByte_cons_same (by simp)
  | cons d rest ih =>
    obtain ⟨a, x⟩ := d
    have hrest := (List.pairwise_cons.mp h.1).1
    simp only [Memory.writeByte]
    split
    · rename_i hka
      refine Memory.readByte_cons_same fun c hc => ?_
      rcases List.mem_cons.mp hc with rfl | hc
      · exact (ne_of_lt hka).symm
      · exact (ne_of_lt (lt_trans hka (hrest c hc))).symm
    · split
      · rename_i hka
        exact Memory.readByte_cons_same fun c hc => hka ▸ (ne_of_lt (hrest c hc)).symm
      · rename_i hle hne
        rw [Memory.readByte, if_neg fun e => hne e.symm]
        exact ih (Memory.tail_wf h)

/-- A write leaves every other byte alone, in every list. -/
theorem Memory.readByte_writeByte_ne (m : Memory) {k j : Nat} (b : Byte) (h : j ≠ k) :
    (m.writeByte k b).readByte j = m.readByte j := by
  induction m with
  | nil => exact Memory.readByte_cons_ne h
  | cons d rest ih =>
    obtain ⟨a, x⟩ := d
    simp only [Memory.writeByte]
    split
    · exact Memory.readByte_cons_ne h
    · split
      · rename_i hka
        rw [Memory.readByte_cons_ne h]
        simp [Memory.readByte, ← hka, h.symm]
      · simp [Memory.readByte, ih]

/-! ### Words -/

theorem Memory.writeWord_wf {m : Memory} (h : m.wf) (a : Nat) (v : Word) : (m.writeWord a v).wf :=
  Memory.writeByte_wf (Memory.writeByte_wf h _ _) _ _

/-- Both bytes of a written cell lie below `2 * capacity` when its address lies below `capacity`. -/
theorem Memory.writeWord_bound {m : Memory} {capacity a : Nat} (h : ∀ c ∈ m, c.1 < 2 * capacity) (ha : a < capacity)
    (v : Word) : ∀ c ∈ m.writeWord a v, c.1 < 2 * capacity := by
  intro c hc
  rcases Memory.mem_writeByte hc with ⟨_, rfl⟩ | hc
  · simp only [byteBase]; omega
  · rcases Memory.mem_writeByte hc with ⟨_, rfl⟩ | hc
    · simp only [byteBase]; omega
    · exact h c hc

/-- A write of a cell leaves every byte outside the cell alone. -/
theorem Memory.readByte_writeWord_ne (m : Memory) {a k : Nat} (v : Word) (h : k ≠ byteBase a) (h' : k ≠ byteBase a + 1) :
    (m.writeWord a v).readByte k = m.readByte k := by
  rw [Memory.writeWord, Memory.readByte_writeByte_ne _ _ h', Memory.readByte_writeByte_ne _ _ h]

theorem Memory.readByte_writeWord_high {m : Memory} (h : m.wf) (a : Nat) (v : Word) :
    (m.writeWord a v).readByte (byteBase a) = (bytesOf v).1 := by
  rw [Memory.writeWord, Memory.readByte_writeByte_ne _ _ (by omega), Memory.readByte_writeByte_same h]

theorem Memory.readByte_writeWord_low {m : Memory} (h : m.wf) (a : Nat) (v : Word) :
    (m.writeWord a v).readByte (byteBase a + 1) = (bytesOf v).2 :=
  Memory.readByte_writeByte_same (Memory.writeByte_wf h _ _) _ _

theorem Memory.loadWords_wf {m : Memory} (h : m.wf) (a : Nat) (bytes : List Byte) : (m.loadWords a bytes).wf := by
  fun_induction Memory.loadWords m a bytes with
  | case1 m a b0 b1 rest ih => exact ih (Memory.writeWord_wf h _ _)
  | case2 => exact h

/-- The memory of a reset machine is in canonical form. -/
theorem State.reset_mem_wf : State.reset.mem.wf := by decide

end Sys2Proof.Machine
end

