-- ==== Sys2Proof/Laws/PerInstr.lean ====
section
/-!
SUPPORT. One statement per instruction: its record carries the tag and the format of its row of the opcode map
(spec/30_encoding.md R82, R83, R89).
-/

namespace Sys2Proof.Laws

/-- The record has the tag of the instruction's row, which selects the instruction again, and in the format of the tag the
record is valid exactly when the instruction is well-formed. -/
def Tag.Statement (i : Instr) : Prop :=
  i.toRecord.opcode ≤ 15 ∧ i.toRecord.toInstr? = some i ∧ i.toRecord.valid = i.wf

theorem Tag.and (reg1 reg2 reg3 : Reg) : Tag.Statement (.and reg1 reg2 reg3) := ⟨by simp [Instr.toRecord], rfl, rfl⟩
theorem Tag.or (reg1 reg2 reg3 : Reg) : Tag.Statement (.or reg1 reg2 reg3) := ⟨by simp [Instr.toRecord], rfl, rfl⟩
theorem Tag.xor (reg1 reg2 reg3 : Reg) : Tag.Statement (.xor reg1 reg2 reg3) := ⟨by simp [Instr.toRecord], rfl, rfl⟩
theorem Tag.not (reg1 reg2 reg3 : Reg) : Tag.Statement (.not reg1 reg2 reg3) := ⟨by simp [Instr.toRecord], rfl, rfl⟩
theorem Tag.sh (reg1 reg2 reg3 : Reg) : Tag.Statement (.sh reg1 reg2 reg3) := ⟨by simp [Instr.toRecord], rfl, rfl⟩
theorem Tag.add (reg1 reg2 reg3 : Reg) : Tag.Statement (.add reg1 reg2 reg3) := ⟨by simp [Instr.toRecord], rfl, rfl⟩
theorem Tag.sub (reg1 reg2 reg3 : Reg) : Tag.Statement (.sub reg1 reg2 reg3) := ⟨by simp [Instr.toRecord], rfl, rfl⟩
theorem Tag.mul (reg1 reg2 reg3 : Reg) : Tag.Statement (.mul reg1 reg2 reg3) := ⟨by simp [Instr.toRecord], rfl, rfl⟩
theorem Tag.div (reg1 reg2 reg3 : Reg) : Tag.Statement (.div reg1 reg2 reg3) := ⟨by simp [Instr.toRecord], rfl, rfl⟩
theorem Tag.comp (reg1 reg2 reg3 : Reg) : Tag.Statement (.comp reg1 reg2 reg3) := ⟨by simp [Instr.toRecord], rfl, rfl⟩

theorem Tag.li (reg2 : Reg) (imm : Word) : Tag.Statement (.li reg2 imm) := ⟨by simp [Instr.toRecord], rfl, by
  simp [Instr.toRecord, Record.valid, Instr.wf]⟩
theorem Tag.amc (reg2 : Reg) (imm : Word) : Tag.Statement (.amc reg2 imm) := ⟨by simp [Instr.toRecord], rfl, by
  simp [Instr.toRecord, Record.valid, Instr.wf]⟩
theorem Tag.lwmc (reg2 : Reg) (imm : Word) : Tag.Statement (.lwmc reg2 imm) := ⟨by simp [Instr.toRecord], rfl, by
  simp [Instr.toRecord, Record.valid, Instr.wf]⟩
theorem Tag.swmc (reg2 : Reg) (imm : Word) : Tag.Statement (.swmc reg2 imm) := ⟨by simp [Instr.toRecord], rfl, by
  simp [Instr.toRecord, Record.valid, Instr.wf]⟩
theorem Tag.piu (reg2 : Reg) (imm : Word) : Tag.Statement (.piu reg2 imm) := ⟨by simp [Instr.toRecord], rfl, by
  simp [Instr.toRecord, Record.valid, Instr.wf]⟩
theorem Tag.apceq (reg2 : Reg) (imm : Word) : Tag.Statement (.apceq reg2 imm) := ⟨by simp [Instr.toRecord], rfl, by
  simp [Instr.toRecord, Record.valid, Instr.wf]⟩

end Sys2Proof.Laws
end

