-- ==== Sys2Proof/Tests/Slice0.lean ====
section
/-!
SUPPORT. Tests. Expected values come from spec/95_test_vectors.md and the examples of the instruction rules, or are written out
by hand from the encodings of 30_encoding.md; the witnesses show that the hypotheses of the statements can be met together.
-/

namespace Sys2Proof.Tests

open Sys2Proof.Machine

/-! ### Helpers -/

/-- A machine of `capacity` words about to fetch `w` at `pc`, with the registers of `rs` written. -/
def boot (capacity pc : Nat) (w : Word) (rs : List (Reg × Word)) : State :=
  rs.foldl (fun s p => s.setReg p.1 p.2) { State.resetOf capacity with pc := pc, mem := Memory.writeWord [] pc w }

/-- The same with another memory counter. -/
def bootMc (capacity pc mc : Nat) (w : Word) (rs : List (Reg × Word)) : State := { boot capacity pc w rs with mc := mc }

/-- The same with a scripted device. -/
def bootScript (pc : Nat) (w : Word) (rs : List (Reg × Word)) (script : List PeriphAnswer) : State :=
  { boot 256 pc w rs with periph := { script := script, calls := [] } }

def after (s : State) : Option State :=
  match step s with
  | .next t => some t
  | .fault _ => none
  | .refused _ => none

def regAfter (s : State) (r : Reg) : Option Word := (after s).map (·.reg r)

def pcAfter (s : State) : Option Nat := (after s).map (·.pc)

def mcAfter (s : State) : Option Nat := (after s).map (·.mc)

def runAfter (s : State) : Option RunState := (after s).map (·.run)

/-! ### Decoding: each word written out bit by bit from R82, R83 and R89 -/

theorem test_decode_and : decode 0b0000001100010010 = some (.and 3 1 2) := by decide
theorem test_decode_or : decode 0b0001000100010010 = some (.or 1 1 2) := by decide
theorem test_decode_xor : decode 0b0010001100010010 = some (.xor 3 1 2) := by decide
theorem test_decode_not : decode 0b0011000100101111 = some (.not 1 2 15) := by decide
theorem test_decode_sh : decode 0b0100000100010010 = some (.sh 1 1 2) := by decide
theorem test_decode_add : decode 0b0101001000100001 = some (.add 2 2 1) := by decide
theorem test_decode_sub : decode 0b0110000100010011 = some (.sub 1 1 3) := by decide
theorem test_decode_mul : decode 0b0111010100110100 = some (.mul 5 3 4) := by decide
theorem test_decode_div : decode 0b1000001100010010 = some (.div 3 1 2) := by decide
theorem test_decode_comp : decode 0b1001111100010100 = some (.comp 15 1 4) := by decide
theorem test_decode_li : decode 0b1010001010000000 = some (.li 2 0xFF80) := by decide
theorem test_decode_amc : decode 0b1011001011111111 = some (.amc 2 0xFFFF) := by decide
theorem test_decode_lwmc : decode 0b1100001111111110 = some (.lwmc 3 0xFFFE) := by decide
theorem test_decode_swmc : decode 0b1101001000000000 = some (.swmc 2 0) := by decide
theorem test_decode_piu : decode 0b1110001100000010 = some (.piu 3 2) := by decide
theorem test_decode_apceq : decode 0b1111111111111011 = some (.apceq 15 0xFFFB) := by decide

/-- The codec knows nothing of sentinels (30_encoding.md R90). -/
theorem test_decode_sentinel_word : decode 0x0001 = some (.and 0 0 1) := by decide

theorem test_decodeBytes_truncated : decodeBytes [0xAF] = .error .truncated := rfl
theorem test_decodeBytes_rest : decodeBytes [0xAF, 0x05, 0x91] = .ok (.li 15 5, [0x91]) := rfl
theorem test_decodeTableWord : decodeTableWord 16 0xA1F9 = some (.li 1 0xFFF9) := by decide

/-! ### Well-formedness: an ill-formed term for each check (95_test_vectors.md section 2.1, "Records that are not valid") -/

theorem test_wf_refuses_li : (Instr.li 0 0x0080).wf = false := by decide
theorem test_wf_refuses_amc : (Instr.amc 0 0xFF7F).wf = false := by decide
theorem test_wf_refuses_lwmc : (Instr.lwmc 0 0x0080).wf = false := by decide
theorem test_wf_refuses_swmc : (Instr.swmc 0 0x7FFF).wf = false := by decide
theorem test_wf_refuses_piu : (Instr.piu 0 0x8000).wf = false := by decide
theorem test_wf_refuses_apceq : (Instr.apceq 0 0x0100).wf = false := by decide
theorem test_wf_accepts_ends : (Instr.li 0 0x007F).wf = true ∧ (Instr.li 0 0xFF80).wf = true := by decide
theorem test_encodeRecord_refuses_immediate : encodeRecord ⟨10, 0, 0, 0, 0x0080⟩ = none := by decide
theorem test_encodeRecord_refuses_reg1 : encodeRecord ⟨10, 1, 0, 0, 0⟩ = none := by decide
theorem test_encodeRecord_refuses_R_immediate : encodeRecord ⟨5, 0, 0, 0, 1⟩ = none := by decide
theorem test_encodeRecord_refuses_opcode : encodeRecord ⟨16, 0, 0, 0, 0⟩ = none := by decide
theorem test_no_handler : (Record.mk 16 0 0 0 0).toInstr? = none := by decide

/-! ### Word and memory (95_test_vectors.md S1, S2, sections 2.2 and 2.8) -/

theorem test_wrap16 : wrap16 70000 = 0x1170 ∧ wrap16 (-70000) = 0xEE90 ∧ s16 0x8000 = -32768 := by decide
theorem test_ctrAdd : ctrAdd 100 0 (-32768) = 32 ∧ ctrAdd 7 0 (-15) = 6 ∧ ctrAdd 256 255 1 = 0 := by decide
theorem test_bytesOf : bytesOf 0x1234 = (0x12, 0x34) ∧ wordOf 0xAF 0x05 = 0xAF05 := by decide
theorem test_memRead_edge : (State.resetOf 4).memRead 3 = .ok 0 ∧ (State.resetOf 4).memRead 4 = .error (.memoryIndexError 4) ∧
    (State.resetOf 4).memRead (-1) = .error (.memoryIndexError (-1)) := ⟨rfl, rfl, rfl⟩
theorem test_write_zero_unlists : (Memory.writeWord [] 3 0x1200).writeWord 3 0 = [] := by decide
theorem test_memory_sorted : (Memory.writeWord (Memory.writeWord [] 9 0x0100) 2 0x00AB) = [(5, 0xAB), (18, 0x01)] := by decide

theorem test_sentinel_halts : runAfter (boot 256 9 0x0001 [(0, 0x1234)]) = some (.halted 0x0001) ∧
    pcAfter (boot 256 9 0x0001 []) = some 9 ∧ regAfter (boot 256 9 0x0001 [(0, 0x1234)]) 0 = some 0x1234 := by decide
theorem test_word_2_is_no_sentinel : runAfter (boot 256 9 0x0002 []) = some .running := by decide

/-! ### Instructions (95_test_vectors.md sections 2.3 to 2.10) -/

theorem test_and : regAfter (boot 256 9 0x0312 [(1, 0x0F0F), (2, 0x00FF)]) 3 = some 0x000F := by decide
theorem test_or : regAfter (boot 256 9 0x1312 [(1, 0x0F0F), (2, 0x00FF)]) 3 = some 0x0FFF := by decide
theorem test_xor : regAfter (boot 256 9 0x2312 [(1, 0x0F0F), (2, 0x00FF)]) 3 = some 0x0FF0 := by decide
theorem test_xor_self : regAfter (boot 256 9 0x2111 [(1, 0x0F0F)]) 1 = some 0x0000 := by decide
theorem test_not : regAfter (boot 256 9 0x312F [(2, 0x00FF)]) 1 = some 0xFF00 := by decide
theorem test_or_wraps_pc : pcAfter (boot 256 255 0x1000 []) = some 0 := by decide

theorem test_sh_right_floor : regAfter (boot 256 9 0x4312 [(1, 0x8001), (2, 0x0001)]) 3 = some 0xC000 := by decide
theorem test_sh_left : regAfter (boot 256 9 0x4112 [(1, 0xFFA3), (2, 0xFFF8)]) 1 = some 0xA300 := by decide
/-- Table of section 2.4, rows 8 and 18: the amount is not taken modulo 16. -/
theorem test_sh16_not_modulo : sh16 0x8000 16 = 0xFFFF ∧ sh16 0x0001 (-16) = 0x0000 := by decide

theorem test_add_wraps : regAfter (boot 256 9 0x5312 [(1, 0x7FFF), (2, 0x0001)]) 3 = some 0x8000 := by decide
theorem test_add_self : regAfter (boot 256 9 0x5111 [(1, 0x4000)]) 1 = some 0x8000 := by decide
theorem test_sub_order : regAfter (boot 256 9 0x6312 [(1, 0x0000), (2, 0x0001)]) 3 = some 0xFFFF := by decide
theorem test_sub_wraps : regAfter (boot 256 9 0x6312 [(1, 0x8000), (2, 0x0001)]) 3 = some 0x7FFF := by decide
theorem test_mul_negative : regAfter (boot 256 9 0x7534 [(3, 0x0064), (4, 0xFFF9)]) 5 = some 0xFD44 := by decide
theorem test_mul_low_half : regAfter (boot 256 9 0x7312 [(1, 0x7FFF), (2, 0x7FFF)]) 3 = some 0x0001 := by decide

theorem test_div_truncates : regAfter (boot 256 20 0x8312 [(1, 0xFFF9), (2, 0x0002)]) 3 = some 0xFFFD ∧
    regAfter (boot 256 20 0x8312 [(1, 0x8000), (2, 0xFFFF)]) 3 = some 0x8000 := by decide
theorem test_div_zero : after (boot 256 4 0x8510 [(1, 0xFFF9), (5, 0x0009)]) =
    some { boot 256 4 0x8510 [(1, 0xFFF9), (5, 0x0009)] with run := .halted 0x0001 } := by decide

theorem test_comp_exact : regAfter (boot 256 9 0x9312 [(1, 0x7FFF), (2, 0xFFFF)]) 3 = some 0x0001 ∧
    regAfter (boot 256 9 0x9312 [(1, 0x8000), (2, 0x0001)]) 3 = some 0xFFFF := by decide
theorem test_comp_X : regAfter (boot 256 9 0x9F11 [(1, 0x1234), (15, 5)]) 15 = some 0x0000 := by decide

theorem test_li_sign : regAfter (boot 256 9 0xA280 []) 2 = some 0xFF80 := by decide
theorem test_li_overwrites : regAfter (boot 256 9 0xA400 [(4, 0xBEEF)]) 4 = some 0x0000 := by decide

theorem test_amc_wraps_below : mcAfter (bootMc 256 9 0 0xB0FF []) = some 255 := by decide
/-- Section 2.7: an unbounded sum would give 78. -/
theorem test_amc_16_bit_sum : mcAfter (bootMc 100 9 10 0xB101 [(1, 0x7FFF)]) = some 42 := by decide

theorem test_lwmc_own_word : regAfter (bootMc 256 0 0 0xC300 []) 3 = some 0xC300 := by decide
theorem test_lwmc_wraps : regAfter (bootMc 256 1 255 0xC302 []) 3 = some 0xC302 := by decide

theorem test_swmc_wraps : (after (bootMc 256 9 0 0xD5FF [(5, 0x1234)])).map (·.mem.readWord 255) = some 0x1234 := by decide
theorem test_swmc_into_code : (after (boot 256 3 0xD580 [(5, 0x1234)])).map (fun t => (t.mem.readWord 0, t.mc, t.pc)) =
    some (0x1234, 128, 4) := by decide

theorem test_piu_write_and_halt :
    (after (bootScript 6 0xE302 [(3, 0x0010)] [.returned (some 0x0041) (some 0x0007)])).map
      (fun t => (t.reg 3, t.pc, t.run, t.periph.calls)) =
    some (0x0041, 6, .halted 0x0007, [{ cmd := 0x0002, sel := 3, v := 0x0010 }]) := by decide
theorem test_piu_command_sign :
    (after (bootScript 6 0xE380 [(3, 0x0010)] [.returned none none])).map (fun t => (t.reg 3, t.pc, t.periph.calls)) =
    some (0x0010, 7, [{ cmd := 0xFF80, sel := 3, v := 0x0010 }]) := by decide

theorem test_apceq_taken : pcAfter (boot 256 10 0xF405 [(4, 2)]) = some 17 ∧
    pcAfter (boot 256 10 0xF405 [(4, 2), (15, 0x8000)]) = some 11 := by decide
theorem test_apceq_wraps : pcAfter (boot 256 2 0xFFFB []) = some 253 ∧
    pcAfter (boot 100 7 0xF37F [(3, 0x7FFF)]) = some 65 := by decide

/-! ### The host's transactions (95_test_vectors.md section 2.8) -/

theorem test_load_dump : ((State.resetOf 4).loadProgram false [0xAF, 0x05, 0x91, 0x23, 0x00, 0x00]).map (·.dump false) =
    .ok (some [0xAF, 0x05, 0x91, 0x23, 0, 0, 0, 0]) := rfl
theorem test_load_length_first : (State.resetOf 4).loadProgram false (List.replicate 9 1) = .error .memoryOverflowError ∧
    (State.resetOf 4).loadProgram false [1, 2, 3] = .error .oddLength := ⟨rfl, rfl⟩
theorem test_load_only_reset : (boot 4 1 0xA000 []).loadProgram false [] = .error .notReset := rfl
/-- The session of the launch sequence: construct, load, start (R221). -/
def launched (byteSize : Int) (bytes : List Byte) : Except LaunchError Session :=
  match Session.construct byteSize [] with
  | .error e => .error e
  | .ok x => match x.load bytes with
    | .error e => .error e
    | .ok y => y.start

/-- The session after one cycle. -/
def afterCycle (x : Session) : Session :=
  match x.cycle with
  | .next y => y
  | .fault _ => x
  | .refused _ => x

theorem test_load_not_started : State.reset.loadProgram true [] = .error .runStarted := rfl

/-- With one word of memory the image 0xD000 (`swmc r0, 0`) stores zero over itself and comes back to the reset state, still
running: the host has no move all the same (R222). -/
theorem test_no_move_during_run :
    (launched 2 [0xD0, 0x00]).map (fun x => (x.machine.mem.readWord 0, (afterCycle x).machine)) =
      .ok (0xD000, State.resetOf 1) ∧
    (launched 2 [0xD0, 0x00]).map (fun x => ((afterCycle x).load [0xAF, 0x05], (afterCycle x).read, (afterCycle x).dump)) =
      .ok (.error .runStarted, none, none) := by decide

/-- The image 0x0001 halts in the first cycle, and then the host reads (R221). -/
theorem test_read_after_run :
    (launched 2 [0x00, 0x01]).map (fun x => ((afterCycle x).read.map (fun r => (r.run, r.pc, r.mc)), (afterCycle x).dump)) =
      .ok (some (.halted 0x0001, 0, 0), some [0x00, 0x01]) := by decide
theorem test_construct : construct 5 = .error .invalidSize ∧ construct 8 = .ok (State.resetOf 4) := ⟨rfl, rfl⟩
theorem test_exitReason : exitReason 0x0000 = some "no instructions left to execute" ∧
    exitReason 0x0001 = some "division by zero" ∧ exitReason 0x002A = none := by decide

/-! ### The first step after reset -/

theorem test_reset_runs_off_empty_memory : step State.reset = .next { State.reset with run := .halted 0x0000 } := rfl
theorem test_withFetchWord_runs : step (State.reset.withFetchWord 16 0xAF05) =
    exec (.li 15 5) (State.reset.withFetchWord 16 0xAF05) := rfl

/-- Whatever the free answer is, the call completes. -/
theorem test_piu_at_reset_completes : (after (State.reset.withFetchWord 16 0xE000)).isSome = true := by decide

/-! ### Witnesses: concrete data that meet all hypotheses of a statement together, for each clause at an end of its range -/

theorem witness_RowsDecodeByTheirFields : (15 : Reg).val = (15 : BitVec 4).toNat ∧ (0 : Reg).val = (0 : BitVec 4).toNat := by
  decide
theorem witness_RecordCodecRoundTrip : (Record.mk 9 15 0 15 0).valid = true ∧ (Record.mk 10 0 15 0 0xFF80).valid = true := by
  decide
theorem witness_DecodeEncodeEveryInstruction : (Instr.apceq 15 0x007F).wf = true ∧ (Instr.and 0 15 0).wf = true := by decide
theorem witness_EveryWordIsOneInstruction : (Instr.li 15 5).wf = true ∧ encode (.li 15 5) = 0xAF05 := by decide
theorem witness_DivisionTruncates : (0xFFFF : Word) ≠ 0 ∧ ¬ ((0x7FFF : Word) = 0x8000 ∧ (0xFFFF : Word) = 0xFFFF) := by decide
theorem witness_ShiftSaturates : (15 : Int) ≤ 15 ∧ (-16 : Int) ≤ -16 := by decide
theorem witness_ShiftMovesBits : 1 ≤ 15 ∧ 15 ≤ 15 ∧ 15 < 16 := by decide
theorem witness_CounterAddIsModular : ctrAdd 1 0 (-1) = 0 := by decide
theorem witness_DeltaReadingsAgree : (0 < 100 ∧ -32768 ≤ s16 0x7FFF + s16 0 ∧ s16 0x7FFF + s16 0 ≤ 32767) ∧ 256 ∣ 65536 := by
  decide
theorem witness_DivResult : State.reset.reg 15 = 0 ∧ (boot 256 4 0 [(15, 0xFFFF)]).reg 15 ≠ 0 := by decide
theorem witness_CompResult : s16 1 > s16 0xFFFF ∧ s16 0x8000 < s16 0x7FFF := by decide
theorem witness_LwmcResult : 0 < (State.resetOf 1).capacity := by decide
theorem witness_SwmcResult : 0 < (boot 256 9 0xD200 []).capacity ∧ (boot 256 9 0xD200 []).mem.wf := by decide
theorem witness_PiuTakesScriptedAnswer :
    (bootScript 0 0xE302 [] [.returned (some 1) none]).periph.script = .returned (some 1) none :: [] := rfl
theorem witness_PiuCompletesOnFreeAnswer : State.reset.periph.script = [] := rfl
theorem witness_PiuHangsWithItsDevice : (bootScript 0 0xE302 [] [.hang]).periph.script = .hang :: [] := rfl
theorem witness_PortFaultsAbort :
    (bootMc 0 0 5 0 []).capacity ≤ (bootMc 0 0 5 0 []).ea 0 ∧
    (boot 4 4 0 []).run = .running ∧ (boot 4 4 0 []).capacity ≤ (boot 4 4 0 []).pc := by decide
theorem witness_MemWritePort : (State.resetOf 4).mem.wf ∧ ((0 : Int) ≤ 3 ∧ (3 : Int) < ((State.resetOf 4).capacity : Int)) ∧
    ¬ ((0 : Int) ≤ 4 ∧ (4 : Int) < ((State.resetOf 4).capacity : Int)) := by decide
theorem witness_StepRunsDecodedInstruction :
    (boot 4 3 0xAF05 []).run = .running ∧ (boot 4 3 0xAF05 []).pc < (boot 4 3 0xAF05 []).capacity ∧
    (boot 4 3 0xAF05 []).mem.readByte (2 * 3) = 0xAF ∧ (boot 4 3 0xAF05 []).mem.readByte (2 * 3 + 1) = 0x05 ∧
    wordOf 0xAF 0x05 ≠ 0x0000 ∧ wordOf 0xAF 0x05 ≠ 0x0001 ∧ decodeBytes [0xAF, 0x05] = .ok (.li 15 5, []) :=
  ⟨rfl, by decide, rfl, rfl, by decide, by decide, rfl⟩
theorem witness_SentinelHalts : (boot 4 3 0x0001 []).run = .running ∧ (boot 4 3 0x0001 []).pc < (boot 4 3 0x0001 []).capacity ∧
    (boot 4 3 0x0001 []).mem.readWord 3 = 0x0001 ∧ (boot 4 0 0x0000 []).mem.readWord 0 = 0x0000 := by decide
theorem witness_EndedRunStaysAsItIs : (State.reset.halt 7).run ≠ .running ∧ (State.reset.raise (.unknownOpcode 7)).run ≠ .running := by
  decide
theorem witness_PlacedInstructionRunsNext : State.reset.mem.wf ∧ State.reset.pc < State.reset.capacity ∧
    (Instr.and 0 0 2).wf = true ∧ encode (.and 0 0 2) ≠ 0x0000 ∧ encode (.and 0 0 2) ≠ 0x0001 := by decide
theorem witness_ResetIsSafe : (State.resetOf 1).Safe := by decide
theorem witness_StepKeepsInvariant : (boot 4 3 0xD200 [(2, 9)]).Inv ∧
    step (boot 4 3 0xD200 [(2, 9)]) = .next ((after (boot 4 3 0xD200 [(2, 9)])).getD State.reset) := ⟨by decide, rfl⟩
theorem witness_SafeStepRaisesNoFault : (bootMc 4 3 0 0xC3FF []).Safe ∧
    step (bootMc 4 3 0 0xC3FF []) = .next ((after (bootMc 4 3 0 0xC3FF [])).getD State.reset) := ⟨by decide, rfl⟩
theorem witness_StepAnswersUnlessDeviceHangs : State.reset.periph.script.head? ≠ some .hang := by decide
theorem witness_HaltHasThreeSources_sentinel : (boot 4 3 0x0001 []).run = .running ∧
    step (boot 4 3 0x0001 []) = .next ((boot 4 3 0x0001 []).halt 0x0001) := ⟨rfl, rfl⟩
theorem witness_HaltHasThreeSources_div : (boot 4 3 0x8510 []).run = .running ∧
    step (boot 4 3 0x8510 []) = .next ((boot 4 3 0x8510 []).halt 0x0001) := ⟨rfl, rfl⟩
theorem witness_HaltHasThreeSources_piu : (bootScript 3 0xE302 [] [.returned none (some 7)]).run = .running ∧
    runAfter (bootScript 3 0xE302 [] [.returned none (some 7)]) = some (.halted 7) := by decide
theorem witness_PcMovesByRule_taken : (boot 4 3 0xF405 []).run = .running ∧
    step (boot 4 3 0xF405 []) = .next ((boot 4 3 0xF405 []).movePc 5) := ⟨rfl, rfl⟩
theorem witness_PcMovesByRule_sequential : (boot 4 3 0x1000 []).run = .running ∧ pcAfter (boot 4 3 0x1000 []) = some 0 := by decide
theorem witness_OnlyAmcMovesMc : (boot 4 3 0xB001 []).mc = 2 ∧ mcAfter (boot 4 3 0xB001 []) = some 3 := by decide
theorem witness_OnlySwmcWritesMemory : (boot 4 3 0xD200 [(2, 9)]).mem.readByte 5 = 0 ∧
    (after (boot 4 3 0xD200 [(2, 9)])).map (·.mem.readByte 5) = some 9 := by decide
theorem witness_OnlyDestinationRegisterChanges : (boot 4 3 0xAF05 []).reg 15 = 0 ∧ regAfter (boot 4 3 0xAF05 []) 15 = some 5 := by
  decide
theorem witness_CapacityNeverChanges : step State.reset = .next (State.reset.halt 0) := rfl
theorem witness_StoredWordIsFetchedNext : (bootMc 4 3 0 0xD200 [(2, 0xA307)]).Inv ∧
    (bootMc 4 3 0 0xD200 [(2, 0xA307)]).run = .running ∧
    (bootMc 4 3 0 0xD200 [(2, 0xA307)]).fetch = .instr (.swmc 2 0) ∧
    (after (bootMc 4 3 0 0xD200 [(2, 0xA307)])).isSome = true ∧
    (bootMc 4 3 0 0xD200 [(2, 0xA307)]).ea 0 = (3 + 1) % 4 ∧
    (bootMc 4 3 0 0xD200 [(2, 0xA307)]).reg 2 = 0xA307 ∧ decode 0xA307 = some (.li 3 7) := by decide
theorem witness_DeviceInvisibleOutsidePiu : (boot 4 3 0xAF05 []).fetch = .instr (.li 15 5) ∧
    (after (boot 4 3 0xAF05 [])).isSome = true := by decide
theorem witness_RunEndsOnlyByHalt : State.reset.Safe ∧ runLoop 1 State.reset = .ended (State.reset.halt 0) := by decide
theorem witness_RunEndIndependentOfFuel : runLoop 1 (boot 4 3 0x0001 []) = .ended ((boot 4 3 0x0001 []).halt 0x0001) := by decide
theorem witness_LoadThenDumpPads : 0 < 1 ∧ [(0xAF : Byte), 0x05].length % 2 = 0 ∧ [(0xAF : Byte), 0x05].length ≤ 2 * 1 := by
  decide
theorem witness_LaunchStateHoldsImage : [(0xAF : Byte), 0x05, 0, 0][2 * 1]? = some 0 ∧
    [(0xAF : Byte), 0x05, 0, 0][2 * 1 + 1]? = some 0 ∧ [(0xAF : Byte), 0x05, 0, 0].length ≤ 2 * 2 := by decide
theorem witness_LoadRefusesBadStreams : 2 * 1 < [(1 : Byte), 2, 3].length ∧
    ([(1 : Byte)].length ≤ 2 * 1 ∧ [(1 : Byte)].length % 2 = 1) := by decide
theorem witness_DumpOnlyOutsideRun : State.reset.run = .running ∧ (State.reset.halt 0).run ≠ .running := by decide
theorem witness_HostHasNoMoveDuringRun : (⟨.started, State.reset⟩ : Session).machine.run = .running ∧
    (⟨.started, State.reset⟩ : Session).cycle = .next ⟨.started, State.reset.halt 0⟩ := ⟨rfl, rfl⟩
theorem witness_HostMovesOutsideRun_load : (⟨.fresh, State.resetOf 1⟩ : Session).machine.isReset ∧
    [(0xAF : Byte), 0x05].length % 2 = 0 ∧ [(0xAF : Byte), 0x05].length ≤ 2 * (State.resetOf 1).capacity := by decide
theorem witness_HostMovesOutsideRun_read : (⟨.loaded, State.resetOf 1⟩ : Session).phase ≠ .started ∧
    (⟨.started, (State.resetOf 1).halt 0⟩ : Session).machine.run ≠ .running ∧ 0 < 1 := by decide
theorem witness_ConstructRefusesBadSizes : (0 : Int) ≤ 0 ∧ (5 : Int) % 2 = 1 ∧ 0 < 1 := by decide
theorem witness_RegisterResultFrame :
    exec (.li 15 5) State.reset = .next (State.reset.writeNext 15 5) ∧
    exec (.and 3 1 2) State.reset = .next (State.reset.writeNext 3 (and16 0 0)) := ⟨rfl, rfl⟩
theorem witness_DivLwmcFrame : exec (.lwmc 3 0) State.reset = .next (State.reset.writeNext 3 0) ∧
    exec (.div 3 1 2) State.reset = .next (State.reset.halt 0x0001) ∧
    (boot 4 0 0 [(2, 1)]).reg 2 ≠ 0 ∧ (boot 4 0 0 [(2, 1)]).ea 1 < (boot 4 0 0 [(2, 1)]).capacity :=
  ⟨rfl, rfl, by decide, by decide⟩
theorem witness_CounterInstructionFrame : exec (.amc 3 0) State.reset = .next (State.reset.moveMc 0).advance ∧
    exec (.apceq 3 5) State.reset = .next (State.reset.movePc 5) := ⟨rfl, rfl⟩
theorem witness_SwmcFrame : exec (.swmc 3 0) State.reset = .next State.reset.advance ∧
    State.reset.ea 0 < State.reset.capacity := ⟨rfl, by decide⟩
theorem witness_PiuFrame : (match exec (.piu 3 2) (bootScript 0 0 [] [.returned (some 1) none]) with
    | .next t => t.reg 3
    | .fault _ => 0
    | .refused _ => 0) = 1 := by decide

end Sys2Proof.Tests
end

/-!
PROOFS. The architectural state (spec/10_state.md): what one instruction and one step leave unchanged, field by field, and the
invariant of the counters and of memory.
-/

namespace Sys2Proof.Machine

/-! ### The counters and the reset values -/

/-- The counter is the modular sum itself, as an integer (40_cycle_and_alu.md R128). -/
theorem ctrAdd_cast {capacity : Nat} (h : 0 < capacity) (c : Nat) (d : Int) :
    (ctrAdd capacity c d : Int) = ((c : Int) + d) % (capacity : Int) :=
  Int.toNat_of_nonneg (Int.emod_nonneg _ (by omega))

/-- Settles O10. -/
theorem counterAddIsModular : Obligations.CounterAddIsModular :=
  fun _ c d h => ⟨ctrAdd_lt h c d, ctrAdd_cast h c d⟩

theorem State.resetOf_reg (capacity : Nat) (i : Reg) : (State.resetOf capacity).reg i = 0 := by
  simp [State.reg, State.resetOf]

/-- Memory with no listed byte reads as zero everywhere (10_state.md R36). -/
theorem Memory.readWord_nil (a : Nat) : Memory.readWord [] a = 0 := by
  simp [Memory.readWord, Memory.readByte, unlistedByte, wordOf]

/-- Settles O34. -/
theorem resetValues : Obligations.ResetValues :=
  fun capacity => ⟨State.resetOf_reg capacity, rfl, rfl, Memory.readWord_nil, rfl⟩

/-- `ADD16` is the sum of the patterns, so the delta of R129 is the signed value of that sum. -/
theorem add16_eq_add (a b : Word) : add16 a b = a + b := by
  rw [add16, wrap16, BitVec.ofInt_add, BitVec.ofInt_toInt, BitVec.ofInt_toInt]

/-! ### What one instruction leaves unchanged -/

section Exec

/-- What an instruction that answers a next state did to `s`: its name and its effect, from `exec_next_cases`, as named cases. -/
inductive ExecEffect (s : State) : Instr → State → Prop
  | result {i : Instr} (rd : Reg) (v : Word) (hd : i.dest = some rd) (hp : ∀ r imm, i ≠ .piu r imm) :
      ExecEffect s i (s.writeNext rd v)
  | divZero (r1 r2 r3 : Reg) (hz : s.reg r3 = 0) : ExecEffect s (.div r1 r2 r3) (s.halt exitDivZero)
  | amc (r : Reg) (imm : Word) : ExecEffect s (.amc r imm) (s.moveMc (s.delta r imm)).advance
  | store (r : Reg) (imm : Word) (hm : s.ea imm < s.capacity) :
      ExecEffect s (.swmc r imm) (State.advance { s with mem := s.mem.writeWord (s.ea imm) (s.reg r) })
  | taken (r : Reg) (imm : Word) (hz : s.reg regX = 0) : ExecEffect s (.apceq r imm) (s.movePc (s.delta r imm))
  | notTaken (r : Reg) (imm : Word) (hz : s.reg regX ≠ 0) : ExecEffect s (.apceq r imm) s.advance
  | answer (r : Reg) (imm : Word) (v e : Option Word) (ha : s.periphAnswer ⟨imm, r, s.reg r⟩ = .returned v e) :
      ExecEffect s (.piu r imm) ((s.recordCall ⟨imm, r, s.reg r⟩).takeAnswer r v e)
  | portFault {i : Instr} (r : Reg) (imm : Word) (hi : i = .lwmc r imm ∨ i = .swmc r imm) (hm : ¬ s.ea imm < s.capacity) :
      ExecEffect s i (s.raise (.memoryIndexError (s.ea imm)))

variable {i : Instr} {s t : State}

theorem exec_effect (h : exec i s = .next t) : ExecEffect s i t := by
  rcases exec_next_cases h with ⟨rd, v, hd, hp, rfl⟩ | ⟨r1, r2, r3, rfl, hz, rfl⟩ | ⟨r, imm, rfl, rfl⟩ | ⟨r, imm, rfl, hm, rfl⟩ |
    ⟨r, imm, rfl, hz, rfl⟩ | ⟨r, imm, rfl, hz, rfl⟩ | ⟨r, imm, v, e, rfl, ha, rfl⟩ | ⟨r, imm, hi, hm, rfl⟩
  · exact .result rd v hd hp
  · exact .divZero r1 r2 r3 hz
  · exact .amc r imm
  · exact .store r imm hm
  · exact .taken r imm hz
  · exact .notTaken r imm hz
  · exact .answer r imm v e ha
  · exact .portFault r imm hi hm

theorem exec_capacity (h : exec i s = .next t) : t.capacity = s.capacity := by
  cases exec_effect h with
  | answer => exact State.takeAnswer_capacity ..
  | _ => rfl

/-- Only the destination register of an instruction is written (10_state.md R22). -/
theorem exec_reg_eq (h : exec i s = .next t) {j : Reg} (hj : i.dest ≠ some j) : t.reg j = s.reg j := by
  cases exec_effect h with
  | result rd v hd => exact s.reg_writeNext_ne rd j v fun e => hj (e ▸ hd)
  | answer r imm v e => exact State.takeAnswer_reg_ne _ r j v e fun e => hj (e ▸ rfl)
  | _ => rfl

/-- Only `amc` moves the memory counter (10_state.md R24). -/
theorem exec_mc_eq (h : exec i s = .next t) (hi : ∀ r imm, i ≠ .amc r imm) : t.mc = s.mc := by
  cases exec_effect h with
  | amc r imm => exact absurd rfl (hi r imm)
  | answer => exact State.takeAnswer_mc ..
  | _ => rfl

/-- Only `swmc` writes memory (20_memory.md R57). -/
theorem exec_mem_eq (h : exec i s = .next t) (hi : ∀ r imm, i ≠ .swmc r imm) : t.mem = s.mem := by
  cases exec_effect h with
  | store r imm => exact absurd rfl (hi r imm)
  | answer => exact State.takeAnswer_mem ..
  | _ => rfl

/-- Only `piu` touches the device boundary (44_peripheral.md R172). -/
theorem exec_periph_eq (h : exec i s = .next t) (hi : ∀ r imm, i ≠ .piu r imm) : t.periph = s.periph := by
  cases exec_effect h with
  | answer r imm => exact absurd rfl (hi r imm)
  | _ => rfl

/-- The three ways an instruction ends the run: the zero divisor, the device's exit code, the fault of the memory port. -/
theorem exec_run_cases (h : exec i s = .next t) :
    t.run = s.run ∨
    (∃ r1 r2 r3, i = .div r1 r2 r3 ∧ s.reg r3 = 0 ∧ t.run = .halted exitDivZero) ∨
    (∃ r imm v code, i = .piu r imm ∧ s.periphAnswer ⟨imm, r, s.reg r⟩ = .returned v (some code) ∧ t.run = .halted code) ∨
    (∃ r imm, (i = .lwmc r imm ∨ i = .swmc r imm) ∧ ¬ s.ea imm < s.capacity ∧
      t.run = .aborted (.memoryIndexError (s.ea imm))) := by
  cases exec_effect h with
  | divZero r1 r2 r3 hz => exact .inr (.inl ⟨r1, r2, r3, rfl, hz, rfl⟩)
  | answer r imm v e ha =>
    cases e with
    | none => exact .inl (State.takeAnswer_run ..)
    | some code => exact .inr (.inr (.inl ⟨r, imm, v, code, rfl, ha, State.takeAnswer_run ..⟩))
  | portFault r imm hi hm => exact .inr (.inr (.inr ⟨r, imm, hi, hm, rfl⟩))
  | _ => exact .inl rfl

/-- With none of the three causes at hand, the run state stays. -/
theorem exec_run_eq (h : exec i s = .next t) (hdiv : ∀ r1 r2 r3, i = .div r1 r2 r3 → s.reg r3 ≠ 0)
    (hpiu : ∀ r imm, i ≠ .piu r imm) (hport : ∀ r imm, i = .lwmc r imm ∨ i = .swmc r imm → s.ea imm < s.capacity) :
    t.run = s.run := by
  rcases exec_run_cases h with hr | ⟨r1, r2, r3, hi, hz, _⟩ | ⟨r, imm, _, _, hi, _⟩ | ⟨r, imm, hi, hm, _⟩
  · exact hr
  · exact absurd hz (hdiv r1 r2 r3 hi)
  · exact absurd hi (hpiu r imm)
  · exact absurd (hport r imm hi) hm

/-- Where an instruction leaves `pc`: in place when it ends the run, at the target of a taken branch, or at the next word
(10_state.md R23, 45_branch.md R181). -/
theorem exec_pc_cases (h : exec i s = .next t) :
    (t.run ≠ .running ∧ t.pc = s.pc) ∨
    (t.run = s.run ∧ ∃ r imm, i = .apceq r imm ∧ s.reg regX = 0 ∧ t.pc = ctrAdd s.capacity s.pc (s.delta r imm)) ∨
    (t.run = s.run ∧ (∀ r imm, i = .apceq r imm → s.reg regX ≠ 0) ∧ t.pc = ctrAdd s.capacity s.pc 1) := by
  cases exec_effect h with
  | result rd v hd => exact .inr (.inr ⟨rfl, fun r imm hi => absurd (hi ▸ hd) nofun, rfl⟩)
  | amc | store => exact .inr (.inr ⟨rfl, nofun, rfl⟩)
  | taken r imm hz => exact .inr (.inl ⟨rfl, r, imm, rfl, hz, rfl⟩)
  | notTaken r imm hz => exact .inr (.inr ⟨rfl, fun _ _ _ => hz, rfl⟩)
  | answer r imm v e =>
    rw [State.takeAnswer_run, State.takeAnswer_pc]
    cases e with
    | none => exact .inr (.inr ⟨rfl, nofun, rfl⟩)
    | some code => exact .inl ⟨nofun, rfl⟩
  | divZero | portFault => exact .inl ⟨nofun, rfl⟩

end Exec

/-! ### Frames of the instructions -/

/-- Settles O54: each of these instructions answers its result written to `rd`. -/
theorem registerResultFrame : Obligations.RegisterResultFrame := by
  rintro rd r2 r3 imm s t ⟨i, hi, h⟩
  have hw : ∃ v, exec i s = .next (s.writeNext rd v) := by
    simp only [List.mem_cons, List.not_mem_nil, or_false] at hi
    rcases hi with rfl | rfl | rfl | rfl | rfl | rfl | rfl | rfl | rfl | rfl <;> exact ⟨_, rfl⟩
  obtain ⟨v, hv⟩ := hw
  obtain rfl : s.writeNext rd v = t := Host.Outcome.next.inj (hv.symm.trans h)
  exact ⟨fun j hj => s.reg_writeNext_ne rd j v hj, rfl, fun _ => rfl, rfl, rfl, rfl⟩

/-- Settles O55. -/
theorem divLwmcFrame : Obligations.DivLwmcFrame := by
  intro rd r2 r3 imm s t h
  have hrun : s.reg r3 ≠ 0 → s.ea imm < s.capacity → t.run = s.run := by
    intro hz hm
    rcases h with h | h
    · exact exec_run_eq h (by rintro _ _ _ ⟨⟩; exact hz) nofun nofun
    · exact exec_run_eq h nofun nofun (by simp [hm])
  rcases h with h | h <;>
    exact ⟨fun j hj => exec_reg_eq h (by simpa [Instr.dest] using hj.symm), exec_mc_eq h nofun,
      fun k => by rw [exec_mem_eq h nofun], hrun, exec_capacity h, exec_periph_eq h nofun⟩

/-- Settles O56. -/
theorem counterInstructionFrame : Obligations.CounterInstructionFrame := by
  intro r imm s t h
  rcases h with h | h <;>
    exact ⟨fun j => exec_reg_eq h nofun, fun k => by rw [exec_mem_eq h nofun], exec_run_eq h nofun nofun nofun,
      exec_capacity h, exec_periph_eq h nofun, fun h' => exec_mc_eq h' nofun⟩

/-! ### What a step leaves unchanged -/

/-- A step changes the run state alone, or runs the instruction it fetched. -/
theorem step_run_only_or_exec {s t : State} (h : step s = .next t) :
    (∃ r, t = { s with run := r }) ∨ (s.run = .running ∧ ∃ i, s.fetch = .instr i ∧ exec i s = .next t) := by
  rcases step_next_cases h with ⟨_, rfl⟩ | ⟨_, _, _, rfl⟩ | ⟨_, _, _, rfl⟩ | hexec
  · exact .inl ⟨_, rfl⟩
  · exact .inl ⟨_, rfl⟩
  · exact .inl ⟨_, rfl⟩
  · exact .inr hexec

/-- Settles O44. -/
theorem capacityNeverChanges : Obligations.CapacityNeverChanges := by
  intro s t h
  rcases step_run_only_or_exec h with ⟨_, rfl⟩ | ⟨_, _, _, he⟩
  · rfl
  · exact exec_capacity he

/-- Settles O41. -/
theorem onlyAmcMovesMc : Obligations.OnlyAmcMovesMc := by
  intro s t h hmc
  rcases step_run_only_or_exec h with ⟨_, rfl⟩ | ⟨hr, i, hf, he⟩
  · exact absurd rfl hmc
  · refine ⟨hr, by_contra fun hn => hmc (exec_mc_eq he ?_)⟩
    rintro r imm rfl
    exact hn ⟨r, imm, hf⟩

/-- Settles O43. -/
theorem onlyDestinationRegisterChanges : Obligations.OnlyDestinationRegisterChanges := by
  intro s t h j hj
  rcases step_run_only_or_exec h with ⟨_, rfl⟩ | ⟨hr, i, hf, he⟩
  · exact absurd rfl hj
  · exact ⟨hr, i, hf, by_contra fun hd => hj (exec_reg_eq he hd)⟩

/-! ### The ends of the run and the program counter -/

/-- The fetch answers a sentinel when that is the word at `pc` (40_cycle_and_alu.md R111). -/
theorem State.readWord_of_fetch_sentinel {s : State} {code : Word} (h : s.fetch = .sentinel code) :
    s.mem.readWord s.pc = code ∧ (code = 0x0000 ∨ code = 0x0001) := by
  rcases s.fetch_cases with ⟨_, hf⟩ | ⟨_, hs, hf⟩ | ⟨_, _, ⟨_, _, hf⟩ | ⟨_, hf⟩⟩ <;> cases hf.symm.trans h
  exact ⟨rfl, mem_sentinels.mp hs⟩

/-- Settles O39: a sentinel halts in the fetch, and an instruction halts as `exec_run_cases` says. -/
theorem haltHasThreeSources : Obligations.HaltHasThreeSources := by
  intro s t code hr h ht
  rcases step_next_cases h with ⟨hn, _⟩ | ⟨_, _, _, rfl⟩ | ⟨_, c, hf, rfl⟩ | ⟨_, i, hf, he⟩
  · exact absurd hr hn
  · cases ht
  · cases ht
    obtain ⟨hw, hc⟩ := State.readWord_of_fetch_sentinel hf
    exact .inl ⟨hc, hw⟩
  · rcases exec_run_cases he with h' | ⟨r1, r2, r3, rfl, hz, h'⟩ | ⟨r, imm, v, c, rfl, ha, h'⟩ | ⟨_, _, _, _, h'⟩ <;>
      rw [ht] at h'
    · exact absurd (h'.trans hr) nofun
    · exact .inr (.inl ⟨r1, r2, r3, hf, hz, RunState.halted.inj h'⟩)
    · exact .inr (.inr ⟨r, imm, v, hf, RunState.halted.inj h' ▸ ha⟩)
    · cases h'

/-- Settles O40. -/
theorem pcMovesByRule : Obligations.PcMovesByRule := by
  intro s t hr h
  rcases step_next_cases h with ⟨hn, _⟩ | ⟨_, _, _, rfl⟩ | ⟨_, _, _, rfl⟩ | ⟨_, i, hf, he⟩
  · exact absurd hr hn
  · exact .inl ⟨nofun, rfl⟩
  · exact .inl ⟨nofun, rfl⟩
  · rcases exec_pc_cases he with hend | ⟨ht, r, imm, rfl, hz, hpc⟩ | ⟨ht, hx, hpc⟩
    · exact .inl hend
    · rw [State.delta, add16_eq_add] at hpc
      exact .inr (.inl ⟨ht.trans hr, r, imm, hf, hz, hpc⟩)
    · rw [ctrAdd_one] at hpc
      exact .inr (.inr ⟨ht.trans hr, fun r imm ha => hx r imm (Fetched.instr.inj (hf.symm.trans ha)), hpc⟩)

/-! ### The invariant: one rule per operation that touches a counter or memory -/

section Inv

variable {s : State} (h : s.Inv)
include h

theorem State.Inv.movePc (d : Int) : (s.movePc d).Inv :=
  have ⟨hcap, _, hmc, hwf, hbound⟩ := h
  ⟨hcap, ctrAdd_lt hcap s.pc d, hmc, hwf, hbound⟩

theorem State.Inv.moveMc (d : Int) : (s.moveMc d).Inv :=
  have ⟨hcap, hpc, _, hwf, hbound⟩ := h
  ⟨hcap, hpc, ctrAdd_lt hcap s.mc d, hwf, hbound⟩

theorem State.Inv.store {a : Nat} (ha : a < s.capacity) (v : Word) : State.Inv { s with mem := s.mem.writeWord a v } :=
  have ⟨hcap, hpc, hmc, hwf, hbound⟩ := h
  ⟨hcap, hpc, hmc, Memory.writeWord_wf hwf a v, Memory.writeWord_bound hbound ha v⟩

theorem State.Inv.setReg (i : Reg) (v : Word) : (s.setReg i v).Inv := h

theorem State.Inv.advance : s.advance.Inv := State.Inv.movePc h 1

theorem State.Inv.writeNext (i : Reg) (v : Word) : (s.writeNext i v).Inv := State.Inv.advance (State.Inv.setReg h i v)

theorem State.Inv.takeAnswer (r : Reg) (v e : Option Word) : (s.takeAnswer r v e).Inv := by
  cases e with
  | none => cases v <;> exact State.Inv.advance h
  | some code => cases v <;> exact h

theorem exec_keeps_inv {i : Instr} {t : State} (he : exec i s = .next t) : t.Inv := by
  cases exec_effect he with
  | result rd v => exact State.Inv.writeNext h rd v
  | amc => exact State.Inv.advance (State.Inv.moveMc h _)
  | store _ _ hm => exact State.Inv.advance (State.Inv.store h hm _)
  | taken => exact State.Inv.movePc h _
  | notTaken => exact State.Inv.advance h
  | answer r _ v e => exact State.Inv.takeAnswer (s := s.recordCall _) h r v e
  | divZero | portFault => exact h

end Inv

/-- Settles O36. -/
theorem stepKeepsInvariant : Obligations.StepKeepsInvariant := by
  intro s t hinv h
  rcases step_run_only_or_exec h with ⟨_, rfl⟩ | ⟨_, _, _, he⟩
  · exact hinv
  · exact exec_keeps_inv hinv he

end Sys2Proof.Machine

/-!
PROOFS. Memory (spec/20_memory.md): the byte order of a word, the memory port, who writes memory, the image that a load leaves,
and that no step of a safe state raises a fault.
-/

namespace Sys2Proof

/-! ### Words as bytes, and the total decoder -/

theorem wordOf_bytesOf (v : Word) : wordOf (bytesOf v).1 (bytesOf v).2 = v :=
  BitVec.extractLsb'_append_extractLsb'

theorem bytesOf_wordOf (b0 b1 : Byte) : bytesOf (wordOf b0 b1) = (b0, b1) :=
  Prod.ext BitVec.extractLsb'_append_eq_left BitVec.extractLsb'_append_eq_right

theorem wordOf_toNat (b0 b1 : Byte) : (wordOf b0 b1).toNat = 256 * b0.toNat + b1.toNat := by
  rw [wordOf, BitVec.toNat_append, ← Nat.shiftLeft_add_eq_or_of_lt b1.isLt, Nat.shiftLeft_eq, Nat.mul_comm]

/-- Settles O6. -/
theorem wordSerialisationInverse : Obligations.WordSerialisationInverse :=
  ⟨wordOf_bytesOf, fun b0 b1 => ⟨bytesOf_wordOf b0 b1, wordOf_toNat b0 b1⟩⟩

theorem decodeRecord_opcode (w : Word) : (decodeRecord w).opcode = bits w 15 12 := by
  unfold decodeRecord
  split <;> rfl

theorem Record.exists_toInstr?_eq_some {r : Record} (h : r.opcode < 16) : ∃ i, r.toInstr? = some i := by
  obtain ⟨op, r1, r2, r3, imm⟩ := r
  interval_cases op <;> exact ⟨_, rfl⟩

/-- Every word has a handler, since its tag has four bits (30_encoding.md R91). -/
theorem exists_decode_eq_some (w : Word) : ∃ i, decode w = some i :=
  Record.exists_toInstr?_eq_some (decodeRecord_opcode w ▸ Nat.mod_lt _ (by decide))

end Sys2Proof

namespace Sys2Proof.Machine

/-! ### No step of a safe state faults -/

theorem State.notAborted_iff {s : State} : s.notAborted = true ↔ ∀ cause, s.run ≠ .aborted cause := by
  unfold State.notAborted
  cases s.run <;> simp

/-- The fetch inside memory raises neither `MemoryIndexError` nor `UnknownOpcode` (60_exceptions.md R193, R194). -/
theorem State.fetch_ne_fault {s : State} (h : s.pc < s.capacity) (cause : EngineFault) : s.fetch ≠ .fault cause := by
  obtain ⟨i, hi⟩ := exists_decode_eq_some (s.mem.readWord s.pc)
  rcases s.fetch_cases with ⟨hpc, _⟩ | ⟨_, _, hf⟩ | ⟨_, _, ⟨_, _, hf⟩ | ⟨hn, _⟩⟩
  · exact absurd h hpc
  · simp [hf]
  · simp [hf]
  · simp [hi] at hn

/-- The data address wraps, so an instruction raises nothing either (20_memory.md R51). -/
theorem exec_keeps_notAborted {i : Instr} {s t : State} (hcap : 0 < s.capacity) (hs : s.notAborted = true)
    (h : exec i s = .next t) : t.notAborted = true := by
  rw [State.notAborted_iff] at hs ⊢
  rcases exec_run_cases h with hr | ⟨_, _, _, _, _, hr⟩ | ⟨_, _, _, _, _, _, hr⟩ | ⟨_, imm, _, hm, _⟩
  · exact hr ▸ hs
  · exact hr ▸ nofun
  · exact hr ▸ nofun
  · exact absurd (ctrAdd_lt hcap s.mc (s16 imm)) hm

/-- Settles O37: the invariant keeps `pc` and the data address inside memory, where neither fault can be raised. -/
theorem safeStepRaisesNoFault : Obligations.SafeStepRaisesNoFault := by
  rintro s t ⟨hinv, hs⟩ h
  refine ⟨stepKeepsInvariant s t hinv h, ?_⟩
  obtain ⟨hcap, hpc, -⟩ := hinv
  rcases step_next_cases h with ⟨_, rfl⟩ | ⟨_, cause, hf, _⟩ | ⟨_, _, _, rfl⟩ | ⟨_, _, _, he⟩
  · exact hs
  · exact absurd hf (State.fetch_ne_fault hpc cause)
  · rfl
  · exact exec_keeps_notAborted hcap hs he

/-! ### The memory port -/

theorem Memory.readWord_writeWord_same {m : Memory} (h : m.wf) (a : Nat) (v : Word) : (m.writeWord a v).readWord a = v := by
  rw [Memory.readWord, Memory.readByte_writeWord_high h, Memory.readByte_writeWord_low h, wordOf_bytesOf]

/-- A write of a cell leaves every other cell alone (20_memory.md R56). -/
theorem Memory.readWord_writeWord_ne (m : Memory) {a j : Nat} (v : Word) (h : j ≠ a) :
    (m.writeWord a v).readWord j = m.readWord j := by
  have hcell (k : Nat) (hk : k / 2 = j) : (m.writeWord a v).readByte k = m.readByte k :=
    Memory.readByte_writeWord_ne m v (by unfold byteBase; omega) (by unfold byteBase; omega)
  rw [Memory.readWord, hcell _ (by unfold byteBase; omega), hcell _ (by unfold byteBase; omega), Memory.readWord]

/-- Settles O27. -/
theorem memReadPort : Obligations.MemReadPort := by
  intro s addr
  split
  · exact State.memRead_ok ‹_›
  · exact State.memRead_error ‹_›

/-- Settles O28. -/
theorem memWritePort : Obligations.MemWritePort := fun _ _ v hwf =>
  ⟨fun h => ⟨_, State.memWrite_ok h v, Memory.readWord_writeWord_same hwf _ v,
    fun _ ha => Memory.readWord_writeWord_ne _ v ha, rfl⟩, fun h => State.memWrite_error h v⟩

/-! ### Stores -/

/-- A `swmc` whose address is inside memory stores there and advances. -/
theorem exec_swmc {s : State} {imm : Word} (h : s.ea imm < s.capacity) (r : Reg) :
    exec (.swmc r imm) s = .next (State.advance { s with mem := s.mem.writeWord (s.ea imm) (s.reg r) }) := by
  simp only [exec, execSwmc, State.memWrite_ok (State.inMemory_natCast.mpr h), Int.toNat_natCast]

/-- An instruction writes no byte but the two at the effective address of a `swmc` (20_memory.md R57). -/
theorem exec_readByte_cases {i : Instr} {s t : State} (h : exec i s = .next t) (k : Nat) :
    t.mem.readByte k = s.mem.readByte k ∨ ∃ r imm, i = .swmc r imm ∧ (k = 2 * s.ea imm ∨ k = 2 * s.ea imm + 1) := by
  cases exec_effect h with
  | store r imm =>
    by_cases hk : k = 2 * s.ea imm ∨ k = 2 * s.ea imm + 1
    · exact .inr ⟨r, imm, rfl, hk⟩
    · obtain ⟨hhigh, hlow⟩ := not_or.mp hk
      exact .inl (Memory.readByte_writeWord_ne _ _ hhigh hlow)
  | answer => exact .inl (by rw [State.takeAnswer_mem, State.recordCall_mem])
  | _ => exact .inl rfl

/-- Settles O42. -/
theorem onlySwmcWritesMemory : Obligations.OnlySwmcWritesMemory := by
  intro s t h k hk
  rcases step_run_only_or_exec h with ⟨_, rfl⟩ | ⟨hr, i, hf, he⟩
  · exact absurd rfl hk
  · rcases exec_readByte_cases he k with hsame | ⟨r, imm, rfl, hcell⟩
    · exact absurd hsame hk
    · exact ⟨hr, r, imm, hf, hcell⟩

/-- Settles O45: the store and the next fetch name the same cell. -/
theorem storedWordIsFetchedNext : Obligations.StoredWordIsFetchedNext := by
  rintro s t r imm i ⟨hcap, -, -, hwf, -⟩ hr hf h hea h0 h1 hd
  have hm : s.ea imm < s.capacity := ctrAdd_lt hcap _ _
  rw [step_of_instr hr hf, exec_swmc hm] at h
  obtain rfl := Host.Outcome.next.inj h
  set t := State.advance { s with mem := s.mem.writeWord (s.ea imm) (s.reg r) }
  have hpc : t.pc = s.ea imm := (ctrAdd_one _ _).trans hea.symm
  have hword : t.mem.readWord t.pc = s.reg r := hpc ▸ Memory.readWord_writeWord_same hwf _ _
  exact step_of_instr hr (State.fetch_instr (hpc ▸ hm) (hword ▸ h0) (hword ▸ h1) (hword ▸ hd))

/-! ### The program load and the dump -/

theorem Memory.nil_wf : Memory.wf [] := ⟨.nil, nofun⟩

/-- A load from address `a` up leaves every byte below alone. -/
theorem Memory.readByte_loadWords_of_lt (m : Memory) {a k : Nat} (bytes : List Byte) (h : k < byteBase a) :
    (m.loadWords a bytes).readByte k = m.readByte k := by
  fun_induction Memory.loadWords m a bytes with
  | case1 m a b0 b1 rest ih =>
    rw [ih (by unfold byteBase at *; omega), Memory.readByte_writeWord_ne _ _ (by omega) (by omega)]
  | case2 => rfl

/-- A load of a stream of even length puts its bytes in their order from address `a` up, and leaves every byte above them alone
(20_memory.md R63). -/
theorem Memory.readByte_loadWords {m : Memory} (h : m.wf) (a : Nat) {bytes : List Byte} (he : bytes.length % 2 = 0) (j : Nat) :
    (m.loadWords a bytes).readByte (byteBase a + j) = bytes[j]?.getD (m.readByte (byteBase a + j)) := by
  fun_induction Memory.loadWords m a bytes generalizing j with
  | case1 m a b0 b1 rest ih =>
    have hnext : byteBase (a + 1) = byteBase a + 2 := rfl
    match j with
    | 0 =>
      rw [Memory.readByte_loadWords_of_lt _ _ (by omega), Nat.add_zero, Memory.readByte_writeWord_high h, bytesOf_wordOf]
      rfl
    | 1 =>
      rw [Memory.readByte_loadWords_of_lt _ _ (by omega), Memory.readByte_writeWord_low h, bytesOf_wordOf]
      rfl
    | j + 2 =>
      have hj : byteBase a + (j + 2) = byteBase (a + 1) + j := by omega
      rw [hj, ih (Memory.writeWord_wf h _ _) (by simp only [List.length_cons] at he; omega),
        Memory.readByte_writeWord_ne _ _ (by omega) (by omega)]
      rfl
  | case2 bytes _ _ hshort =>
    match bytes with
    | [] => rfl
    | [_] => cases he
    | b0 :: b1 :: rest => exact absurd rfl (hshort b0 b1 rest)

/-- A load that fits lists nothing outside memory. -/
theorem Memory.loadWords_bound {m : Memory} {capacity a : Nat} {bytes : List Byte} (h : ∀ c ∈ m, c.1 < 2 * capacity)
    (hfit : byteBase a + bytes.length ≤ 2 * capacity) : ∀ c ∈ m.loadWords a bytes, c.1 < 2 * capacity := by
  fun_induction Memory.loadWords m a bytes with
  | case1 m a b0 b1 rest ih =>
    simp only [byteBase, List.length_cons] at hfit ih
    exact ih (Memory.writeWord_bound h (by omega) _) (by omega)
  | case2 => exact h

/-- The image of a stream of even length in the empty memory: its bytes, and zero above them. -/
theorem Memory.readByte_loadWords_nil {bytes : List Byte} (he : bytes.length % 2 = 0) (k : Nat) :
    (Memory.loadWords [] 0 bytes).readByte k = bytes[k]?.getD 0 := by
  simpa [byteBase, Memory.readByte, unlistedByte] using Memory.readByte_loadWords Memory.nil_wf 0 he k

theorem flatMap_range_pair {α : Type} (f : Nat → α) (n : Nat) :
    (List.range n).flatMap (fun a => [f (2 * a), f (2 * a + 1)]) = (List.range (2 * n)).map f := by
  induction n with
  | zero => rfl
  | succ n ih => simp [List.range_succ, Nat.mul_succ, ih]

/-- Reading a list with a default past its end pads it. -/
theorem map_range_getElem?_getD {α : Type} (d : α) {l : List α} {n : Nat} (h : l.length ≤ n) :
    (List.range n).map (fun k => l[k]?.getD d) = l ++ List.replicate (n - l.length) d := by
  refine List.ext_getElem (by simp; omega) fun k hk hk' => ?_
  by_cases hin : k < l.length
  · simp [hin]
  · simp [hin, List.getElem_append_right (Nat.le_of_not_lt hin)]

/-- The dump is the bytes of memory in the order of their places (20_memory.md R64). -/
theorem State.dumpBytes_eq_map (s : State) : s.dumpBytes = (List.range (2 * s.capacity)).map s.mem.readByte := by
  rw [← flatMap_range_pair]
  simp only [State.dumpBytes, Memory.readWord, bytesOf_wordOf, byteBase]

/-- Settles O49. -/
theorem loadThenDumpPads : Obligations.LoadThenDumpPads := by
  intro capacity bytes _ he hl
  refine ⟨_, State.loadProgram_ok_iff.mpr ⟨rfl, rfl, hl, he, rfl⟩, ?_⟩
  calc
    _ = (List.range (2 * capacity)).map (Memory.loadWords [] 0 bytes).readByte := State.dumpBytes_eq_map _
    _ = (List.range (2 * capacity)).map (fun k => bytes[k]?.getD 0) := by rw [funext (Memory.readByte_loadWords_nil he)]
    _ = bytes ++ List.replicate (2 * capacity - bytes.length) 0 := map_range_getElem?_getD 0 hl

theorem construct_two_mul {capacity : Nat} (h : 0 < capacity) :
    construct (2 * (capacity : Int)) = .ok (State.resetOf capacity) := by
  have hsize : 0 < 2 * (capacity : Int) ∧ 2 * (capacity : Int) % 2 = 0 := by omega
  have hwords : (2 * (capacity : Int) / 2).toNat = capacity := by omega
  rw [construct, if_pos hsize, hwords]

/-- A launch that fits is the load of a reset machine with its device attached (70_reset_and_hazards.md R221). -/
theorem launch_two_mul {capacity : Nat} (h : 0 < capacity) (script : List PeriphAnswer) {bytes : List Byte}
    (he : bytes.length % 2 = 0) (hl : bytes.length ≤ 2 * capacity) :
    launch (2 * (capacity : Int)) script bytes = .ok { State.resetOf capacity with
      mem := Memory.loadWords [] 0 bytes, periph := { script := script, calls := [] } } := by
  simp only [launch, construct_two_mul h]
  exact State.loadProgram_ok_iff.mpr ⟨rfl, rfl, hl, he, rfl⟩

/-- Settles O50. -/
theorem launchStateHoldsImage : Obligations.LaunchStateHoldsImage := by
  intro capacity script bytes hcap he hl
  have himage := Memory.readByte_loadWords_nil he
  refine ⟨_, launch_two_mul hcap script he hl, ⟨⟨hcap, hcap, Nat.div_lt_self hcap (by decide), ?_, ?_⟩, rfl⟩, ?_, ?_, rfl⟩
  · exact Memory.loadWords_wf Memory.nil_wf 0 bytes
  · exact Memory.loadWords_bound nofun (by rwa [byteBase, Nat.mul_zero, Nat.zero_add])
  · intro k b0 b1 h0 h1
    simp [Memory.readWord, byteBase, himage, h0, h1]
  · intro k hk
    have h0 : bytes[2 * k]? = none := List.getElem?_eq_none (by omega)
    have h1 : bytes[2 * k + 1]? = none := List.getElem?_eq_none (by omega)
    simp [Memory.readWord, byteBase, himage, h0, h1, wordOf]

/-- What a load before the run does on a machine in its reset state: the length test, then the parity test, then the words. -/
theorem State.loadProgram_of_isReset {s : State} (h : s.isReset) (bytes : List Byte) :
    s.loadProgram false bytes = if 2 * s.capacity < bytes.length then .error .memoryOverflowError
      else if bytes.length % 2 = 1 then .error .oddLength
      else .ok { s with mem := s.mem.loadWords 0 bytes } := by
  rw [State.loadProgram, if_neg Bool.false_ne_true, if_neg (not_not.mpr h)]

/-- Settles O51. -/
theorem loadRefusesBadStreams : Obligations.LoadRefusesBadStreams := by
  intro capacity bytes
  rw [State.loadProgram_of_isReset rfl]
  exact ⟨fun hlong => if_pos hlong, fun ⟨hfits, hodd⟩ => (if_neg (not_lt.mpr hfits)).trans (if_pos hodd)⟩

end Sys2Proof.Machine

/-!
PROOFS. The instruction codec (spec/30_encoding.md): the fields of a word and of a record in each format, the round trips over
words and records, and their consequences for instructions.
-/

namespace Sys2Proof

/-! ### The fields of a word -/

theorem toNat_append_eq_add {m n : Nat} (x : BitVec m) (y : BitVec n) : (x ++ y).toNat = x.toNat * 2 ^ n + y.toNat := by
  rw [BitVec.toNat_append, ← Nat.shiftLeft_add_eq_or_of_lt y.isLt, Nat.shiftLeft_eq]

/-- The fields of the R format make up a word, most significant first (30_encoding.md R82). -/
theorem toNat_rFields (op a b c : BitVec 4) :
    (op ++ a ++ b ++ c).toNat = op.toNat * 4096 + a.toNat * 256 + b.toNat * 16 + c.toNat := by
  simp only [toNat_append_eq_add]
  omega

/-- The fields of the I format make up a word, most significant first (30_encoding.md R83). -/
theorem toNat_iFields (op a : BitVec 4) (f : Byte) :
    (op ++ a ++ f).toNat = op.toNat * 4096 + a.toNat * 256 + f.toNat := by
  simp only [toNat_append_eq_add]
  omega

/-- The low byte of the I format is the last two fields of the R format. -/
theorem rFields_eq_iFields (op a b c : BitVec 4) : op ++ a ++ b ++ c = op ++ a ++ (b ++ c) :=
  BitVec.append_assoc

theorem exists_rFields (w : Word) : ∃ op a b c : BitVec 4, w = op ++ a ++ b ++ c := by
  refine ⟨w.extractLsb' 12 4, w.extractLsb' 8 4, w.extractLsb' 4 4, w.extractLsb' 0 4, BitVec.eq_of_toNat_eq ?_⟩
  rw [toNat_rFields]
  simp only [BitVec.extractLsb'_toNat, Nat.shiftRight_eq_div_pow]
  omega

/-! ### The immediate (30_encoding.md R84, R87) -/

theorem sext8_toNat (f : Byte) : sext8 f.toNat = f.signExtend 16 := by
  apply BitVec.eq_of_toNat_eq
  rw [BitVec.toNat_signExtend, BitVec.msb_eq_decide, sext8]
  have hf := f.isLt
  rcases Nat.lt_or_ge f.toNat 128 with h | h
  · simp [h, Nat.not_le.mpr h]
  · have hwrap : (f.toNat + 0xFF00) % 65536 = f.toNat % 65536 + 0xFF00 := by omega
    simp [h, Nat.not_lt.mpr h, hwrap]

theorem immFits_iff {imm : Word} : immFits imm = true ↔ -128 ≤ s16 imm ∧ s16 imm ≤ 127 := decide_eq_true_iff

theorem immFits_signExtend (f : Byte) : immFits (f.signExtend 16) = true := by
  have hlo := f.le_toInt
  have hhi := f.toInt_lt
  rw [immFits_iff, s16, BitVec.toInt_signExtend_of_le (by decide)]
  omega

/-- The low byte of a sign-extended field is the field. -/
theorem extractLsb'_signExtend (f : Byte) : (f.signExtend 16).extractLsb' 0 8 = f := by
  ext i hi
  have hi16 : i < 16 := by omega
  simp [BitVec.getElem_signExtend, hi, hi16]

/-- An immediate in the range of R87 is the sign extension of its low byte. -/
theorem signExtend_extractLsb' {imm : Word} (h : immFits imm = true) : (imm.extractLsb' 0 8).signExtend 16 = imm := by
  rw [immFits_iff, s16, BitVec.toInt_eq_toNat_cond] at h
  apply BitVec.eq_of_toInt_eq
  rw [BitVec.toInt_signExtend_of_le (by decide), BitVec.toInt_eq_toNat_cond, BitVec.toInt_eq_toNat_cond,
    BitVec.extractLsb'_toNat]
  omega

/-! ### The record of a word, and the word of a record -/

theorem selector_eq_toFin {w : Word} {lo : Nat} {x : BitVec 4} (h : bits w (lo + 3) lo = x.toNat) : selector w lo = x.toFin :=
  Fin.ext ((Nat.mod_eq_of_lt (h ▸ x.isLt)).trans h)

/-- The record of a word with an R-format tag (30_encoding.md R86). -/
theorem decodeRecord_rFields {op : BitVec 4} (h : op.toNat ≤ 9) (a b c : BitVec 4) :
    decodeRecord (op ++ a ++ b ++ c) = ⟨op.toNat, a.toFin, b.toFin, c.toFin, 0⟩ := by
  have hw := toNat_rFields op a b c
  have hop : bits (op ++ a ++ b ++ c) 15 12 = op.toNat := by unfold bits; omega
  have ha : selector (op ++ a ++ b ++ c) 8 = a.toFin := selector_eq_toFin (by unfold bits; omega)
  have hb : selector (op ++ a ++ b ++ c) 4 = b.toFin := selector_eq_toFin (by unfold bits; omega)
  have hc : selector (op ++ a ++ b ++ c) 0 = c.toFin := selector_eq_toFin (by unfold bits; omega)
  rw [decodeRecord, hop, if_pos h, ha, hb, hc]

/-- The record of a word with an I-format tag (30_encoding.md R86). -/
theorem decodeRecord_iFields {op : BitVec 4} (h : 9 < op.toNat) (a : BitVec 4) (f : Byte) :
    decodeRecord (op ++ a ++ f) = ⟨op.toNat, 0, a.toFin, 0, f.signExtend 16⟩ := by
  have hw := toNat_iFields op a f
  have hop : bits (op ++ a ++ f) 15 12 = op.toNat := by unfold bits; omega
  have ha : selector (op ++ a ++ f) 8 = a.toFin := selector_eq_toFin (by unfold bits; omega)
  have hf : bits (op ++ a ++ f) 7 0 = f.toNat := by unfold bits; omega
  rw [decodeRecord, hop, if_neg (Nat.not_le.mpr h), ha, hf, sext8_toNat]

/-- The two forms of a valid record: the field its format lacks is 0 (30_encoding.md R87). -/
theorem Record.valid_iff {r : Record} : r.valid = true ↔ (r.opcode ≤ 9 ∧ r.immediate = 0) ∨
    (9 < r.opcode ∧ r.opcode ≤ 15 ∧ r.reg1 = 0 ∧ r.reg3 = 0 ∧ immFits r.immediate = true) := by
  rcases Nat.lt_or_ge 9 r.opcode with h | h
  · simp [Record.valid, h, Nat.not_le.mpr h, and_assoc]
  · simp [Record.valid, h, Nat.not_lt.mpr h]

theorem Record.pack_rFields {op : BitVec 4} (h : op.toNat ≤ 9) (a b c : BitVec 4) :
    (Record.mk op.toNat a.toFin b.toFin c.toFin 0).pack = op ++ a ++ b ++ c := by
  simp [Record.pack, h]

theorem Record.pack_iFields {op : BitVec 4} (h : 9 < op.toNat) (a : BitVec 4) (f : Byte) :
    (Record.mk op.toNat 0 a.toFin 0 (f.signExtend 16)).pack = op ++ a ++ f := by
  simp [Record.pack, Nat.not_le.mpr h, extractLsb'_signExtend]

/-- The fields of a word, by the format of its tag (30_encoding.md R81 to R83). -/
theorem word_format_cases (w : Word) :
    (∃ op a b c : BitVec 4, op.toNat ≤ 9 ∧ w = op ++ a ++ b ++ c) ∨
    ∃ op a : BitVec 4, ∃ f : Byte, 9 < op.toNat ∧ w = op ++ a ++ f := by
  obtain ⟨op, a, b, c, rfl⟩ := exists_rFields w
  rcases Nat.lt_or_ge 9 op.toNat with h | h
  · exact .inr ⟨op, a, b ++ c, h, rFields_eq_iFields op a b c⟩
  · exact .inl ⟨op, a, b, c, h, rfl⟩

/-- A valid record is made of the fields of some word. -/
theorem Record.valid_cases {r : Record} (hv : r.valid = true) :
    (∃ op a b c : BitVec 4, op.toNat ≤ 9 ∧ r = ⟨op.toNat, a.toFin, b.toFin, c.toFin, 0⟩) ∨
    ∃ op a : BitVec 4, ∃ f : Byte, 9 < op.toNat ∧ r = ⟨op.toNat, 0, a.toFin, 0, f.signExtend 16⟩ := by
  obtain ⟨op, r1, r2, r3, imm⟩ := r
  rcases Record.valid_iff.mp hv with ⟨h9, rfl⟩ | ⟨h9, h15, rfl, rfl, himm⟩
  · exact .inl ⟨⟨op, Nat.lt_of_le_of_lt h9 (by decide)⟩, ⟨r1⟩, ⟨r2⟩, ⟨r3⟩, h9, rfl⟩
  · exact .inr ⟨⟨op, Nat.lt_succ_of_le h15⟩, ⟨r2⟩, imm.extractLsb' 0 8, h9, by rw [signExtend_extractLsb' himm]; rfl⟩

/-! ### The round trips (30_encoding.md R88) -/

theorem decodeRecord_valid (w : Word) : (decodeRecord w).valid = true := by
  rcases word_format_cases w with ⟨op, a, b, c, h, rfl⟩ | ⟨op, a, f, h, rfl⟩
  · rw [decodeRecord_rFields h]
    exact Record.valid_iff.mpr (.inl ⟨h, rfl⟩)
  · rw [decodeRecord_iFields h]
    exact Record.valid_iff.mpr (.inr ⟨h, Nat.le_of_lt_succ op.isLt, rfl, rfl, immFits_signExtend f⟩)

theorem pack_decodeRecord (w : Word) : (decodeRecord w).pack = w := by
  rcases word_format_cases w with ⟨op, a, b, c, h, rfl⟩ | ⟨op, a, f, h, rfl⟩
  · rw [decodeRecord_rFields h, Record.pack_rFields h]
  · rw [decodeRecord_iFields h, Record.pack_iFields h]

theorem decodeRecord_pack {r : Record} (hv : r.valid = true) : decodeRecord r.pack = r := by
  rcases Record.valid_cases hv with ⟨op, a, b, c, h, rfl⟩ | ⟨op, a, f, h, rfl⟩
  · rw [Record.pack_rFields h, decodeRecord_rFields h]
  · rw [Record.pack_iFields h, decodeRecord_iFields h]

theorem encodeRecord_of_valid {r : Record} (h : r.valid = true) : encodeRecord r = some r.pack := if_pos h

/-- Settles O3: both formats carry all sixteen bits, so `pack` is the inverse of `decodeRecord` on valid records. -/
theorem recordCodecRoundTrip : Obligations.RecordCodecRoundTrip :=
  ⟨fun w => (encodeRecord_of_valid (decodeRecord_valid w)).trans (congrArg some (pack_decodeRecord w)),
    fun r h => ⟨r.pack, encodeRecord_of_valid h, decodeRecord_pack h⟩,
    Function.LeftInverse.injective pack_decodeRecord⟩

/-! ### Instructions -/

/-- The record of every instruction carries the tag and the format of its row (30_encoding.md R89). -/
theorem Instr.tagStatement (i : Instr) : Laws.Tag.Statement i :=
  match i with
  | .and .. => Laws.Tag.and ..
  | .or .. => Laws.Tag.or ..
  | .xor .. => Laws.Tag.xor ..
  | .not .. => Laws.Tag.not ..
  | .sh .. => Laws.Tag.sh ..
  | .add .. => Laws.Tag.add ..
  | .sub .. => Laws.Tag.sub ..
  | .mul .. => Laws.Tag.mul ..
  | .div .. => Laws.Tag.div ..
  | .comp .. => Laws.Tag.comp ..
  | .li .. => Laws.Tag.li ..
  | .amc .. => Laws.Tag.amc ..
  | .lwmc .. => Laws.Tag.lwmc ..
  | .swmc .. => Laws.Tag.swmc ..
  | .piu .. => Laws.Tag.piu ..
  | .apceq .. => Laws.Tag.apceq ..

theorem Instr.toInstr?_toRecord (i : Instr) : i.toRecord.toInstr? = some i :=
  have ⟨_, hinstr, _⟩ := i.tagStatement
  hinstr

theorem Instr.toRecord_valid (i : Instr) : i.toRecord.valid = i.wf :=
  have ⟨_, _, hvalid⟩ := i.tagStatement
  hvalid

/-- A valid record is the record of the instruction it names: the fields that the instruction drops are 0. -/
theorem Record.toRecord_of_toInstr? {r : Record} {i : Instr} (hv : r.valid = true) (h : r.toInstr? = some i) :
    i.toRecord = r := by
  obtain ⟨op, r1, r2, r3, imm⟩ := r
  rcases Record.valid_iff.mp hv with ⟨h9, rfl⟩ | ⟨h9, h15, rfl, rfl, _⟩
  · interval_cases op <;> cases h <;> rfl
  · interval_cases op <;> cases h <;> rfl

theorem decode_encode {i : Instr} (h : i.wf = true) : decode (encode i) = some i := by
  rw [decode, encode, decodeRecord_pack (i.toRecord_valid.trans h), i.toInstr?_toRecord]

/-- Settles O4: the record of a well-formed instruction is valid, so its word decodes to it again. -/
theorem decodeEncodeEveryInstruction : Obligations.DecodeEncodeEveryInstruction := fun _ h => decode_encode h

theorem toRecord_of_decode {w : Word} {i : Instr} (h : decode w = some i) : i.toRecord = decodeRecord w :=
  Record.toRecord_of_toInstr? (decodeRecord_valid w) h

theorem wf_of_decode {w : Word} {i : Instr} (h : decode w = some i) : i.wf = true := by
  rw [← i.toRecord_valid, toRecord_of_decode h, decodeRecord_valid]

theorem encode_of_decode {w : Word} {i : Instr} (h : decode w = some i) : encode i = w := by
  rw [encode, toRecord_of_decode h, pack_decodeRecord]

/-- Settles O5: the instruction is the one that the word decodes to, and decoding tells every other one apart from it. -/
theorem everyWordIsOneInstruction : Obligations.EveryWordIsOneInstruction := by
  intro w
  obtain ⟨i, hi⟩ := exists_decode_eq_some w
  refine ⟨i, wf_of_decode hi, hi, fun j hj => ⟨fun hw => ?_, fun hji => hji ▸ encode_of_decode hi⟩⟩
  exact Option.some.inj (((decode_encode hj).symm.trans (congrArg decode hw)).trans hi)

/-- Settles O2. -/
theorem rowsDecodeByTheirFields : Obligations.RowsDecodeByTheirFields := by
  intro op a b c reg1 reg2 reg3 h1 h2 h3
  obtain rfl : reg1 = a.toFin := Fin.ext h1
  obtain rfl : reg2 = b.toFin := Fin.ext h2
  obtain rfl : reg3 = c.toFin := Fin.ext h3
  have h15 : op.toNat ≤ 15 := Nat.le_of_lt_succ op.isLt
  rw [decode]
  rcases Nat.lt_or_ge 9 op.toNat with h | h
  · rw [rFields_eq_iFields, decodeRecord_iFields h]
    generalize op.toNat = tag at h h15 ⊢
    interval_cases tag <;> rfl
  · rw [decodeRecord_rFields h]
    generalize op.toNat = tag at h ⊢
    interval_cases tag <;> rfl

/-- Settles O1. -/
theorem specWordsDecode : Obligations.SpecWordsDecode := by
  unfold Obligations.SpecWordsDecode
  decide

end Sys2Proof

/-!
PROOFS. The cycle and the word ALU (spec/40_cycle_and_alu.md): what a fetched word makes of a step, how the run loop ends, and
the arithmetic of division, shifts, counters and comparison.
-/

namespace Sys2Proof.Machine

/-! ### One cycle -/

theorem step_of_ne_running {s : State} (h : s.run ≠ .running) : step s = .next s := by
  unfold step
  cases hr : s.run with
  | running => exact absurd hr h
  | halted | aborted => rfl

/-- Settles O32. -/
theorem endedRunStaysAsItIs : Obligations.EndedRunStaysAsItIs := fun _ => step_of_ne_running

/-- A sentinel inside memory is what the fetch answers, before any decoding (40_cycle_and_alu.md R111). -/
theorem State.fetch_sentinel {s : State} (h : s.pc < s.capacity) (hw : s.mem.readWord s.pc ∈ sentinels) :
    s.fetch = .sentinel (s.mem.readWord s.pc) := by
  rw [State.fetch_of_lt h, if_pos hw]

/-- Settles O31. -/
theorem sentinelHalts : Obligations.SentinelHalts := by
  rintro s _ hr hpc rfl hw
  exact step_of_sentinel hr (State.fetch_sentinel hpc (mem_sentinels.mpr hw))

theorem decode_of_decodeBytes {b0 b1 : Byte} {i : Instr} {rest : List Byte}
    (h : decodeBytes (b0 :: b1 :: rest) = .ok (i, rest)) : decode (wordOf b0 b1) = some i := by
  simp only [decodeBytes] at h
  split at h
  · next hd => cases h; exact hd
  · cases h

/-- Settles O30: the two bytes make up the fetched word, which goes on to its handler. -/
theorem stepRunsDecodedInstruction : Obligations.StepRunsDecodedInstruction := by
  rintro s i _ _ hr hpc rfl rfl h0 h1 hd
  exact step_of_instr hr (State.fetch_instr hpc h0 h1 (decode_of_decodeBytes hd))

/-! ### The run loop (40_cycle_and_alu.md R116) -/

/-- The run from a state ends in `t` within the fuel: no cycle once the run has ended, otherwise one cycle and the rest. -/
inductive RunEnds (t : State) : Nat → State → Prop
  | ended {fuel : Nat} (hr : t.run ≠ .running) : RunEnds t fuel t
  | cycle {fuel : Nat} {s u : State} (hr : s.run = .running) (hs : step s = .next u) (hend : RunEnds t fuel u) :
      RunEnds t (fuel + 1) s

theorem runLoop_of_ne_running {s : State} (hr : s.run ≠ .running) (fuel : Nat) : runLoop fuel s = .ended s := by
  rw [runLoop.eq_def, if_pos hr]

theorem runLoop_succ_of_next {s u : State} (hr : s.run = .running) (hs : step s = .next u) (fuel : Nat) :
    runLoop (fuel + 1) s = runLoop fuel u := by
  simp [runLoop, hr, hs]

theorem runEnds_of_runLoop {fuel : Nat} {s t : State} (h : runLoop fuel s = .ended t) : RunEnds t fuel s := by
  fun_induction runLoop fuel s with
  | case1 fuel s hr => exact RunResult.ended.inj h ▸ .ended hr
  | case3 s hr n u hs ih => exact .cycle (not_not.mp hr) hs (ih h)
  | case2 | case4 | case5 => cases h

theorem runLoop_of_runEnds {fuel : Nat} {s t : State} (h : RunEnds t fuel s) : runLoop fuel s = .ended t := by
  induction h with
  | ended hr => exact runLoop_of_ne_running hr _
  | cycle hr hs _ ih => exact (runLoop_succ_of_next hr hs _).trans ih

theorem RunEnds.run_ne_running {fuel : Nat} {s t : State} (h : RunEnds t fuel s) : t.run ≠ .running := by
  induction h with
  | ended hr => exact hr
  | cycle _ _ _ ih => exact ih

/-- What every step keeps holds where the run ends. -/
theorem RunEnds.keeps {P : State → Prop} (hstep : ∀ s u, P s → step s = .next u → P u) {fuel : Nat} {s t : State}
    (h : RunEnds t fuel s) (hP : P s) : P t := by
  induction h with
  | ended => exact hP
  | cycle _ hs _ ih => exact ih (hstep _ _ hP hs)

theorem RunEnds.add_fuel {fuel : Nat} {s t : State} (h : RunEnds t fuel s) (more : Nat) : RunEnds t (fuel + more) s := by
  induction h with
  | ended hr => exact .ended hr
  | cycle hr hs _ ih => exact Nat.succ_add _ more ▸ .cycle hr hs ih

/-- Settles O47: safety is kept by every step, and of the two ends of a run it leaves the halt. -/
theorem runEndsOnlyByHalt : Obligations.RunEndsOnlyByHalt := by
  intro fuel s t hs h
  have hend := runEnds_of_runLoop h
  obtain ⟨hinv, hok⟩ : t.Safe := hend.keeps safeStepRaisesNoFault hs
  refine ⟨⟨hinv, hok⟩, ?_⟩
  cases ht : t.run with
  | running => exact absurd ht hend.run_ne_running
  | halted code => exact ⟨code, rfl⟩
  | aborted cause => exact absurd ht (State.notAborted_iff.mp hok cause)

/-- Settles O48. -/
theorem runEndIndependentOfFuel : Obligations.RunEndIndependentOfFuel :=
  fun _ more _ _ h => runLoop_of_runEnds ((runEnds_of_runLoop h).add_fuel more)

/-! ### The two views of a word (00_scope.md R7) -/

theorem s16_bounds (v : Word) : -32768 ≤ s16 v ∧ s16 v ≤ 32767 :=
  ⟨v.le_toInt, Int.le_of_lt_add_one v.toInt_lt⟩

theorem s16_wrap16 (n : Int) : s16 (wrap16 n) = n.bmod 65536 := BitVec.toInt_ofInt n

theorem s16_wrap16_of_fits {n : Int} (h : -32768 ≤ n ∧ n ≤ 32767) : s16 (wrap16 n) = n :=
  BitVec.toInt_ofInt_eq_self (by decide) h.1 (Int.lt_add_one_of_le h.2)

/-! ### Counters and the delta (40_cycle_and_alu.md R128, R129) -/

theorem ctrAdd_congr {capacity : Nat} {d e : Int} (h : d ≡ e [ZMOD capacity]) (c : Nat) :
    ctrAdd capacity c d = ctrAdd capacity c e :=
  congrArg Int.toNat (h.add_left c)

/-- Settles O11: the wrapped sum is congruent to the sum modulo 65536, hence modulo every divisor of it. -/
theorem deltaReadingsAgree : Obligations.DeltaReadingsAgree := by
  rintro capacity c v imm - (hfits | hdvd)
  · rw [add16, s16_wrap16_of_fits hfits]
  · rw [add16, s16_wrap16]
    have hmod : (s16 v + s16 imm).bmod 65536 ≡ s16 v + s16 imm [ZMOD (65536 : Nat)] := Int.bmod_emod
    exact ctrAdd_congr (hmod.of_dvd (Int.natCast_dvd_natCast.mpr hdvd)) c

/-! ### Comparison (40_cycle_and_alu.md R126) -/

theorem s16_cmp16 (a b : Word) : s16 (cmp16 a b) = (s16 a - s16 b).sign := by
  unfold cmp16
  split
  · next h => exact (Int.sign_eq_one_of_pos (by omega)).symm
  · split
    · next h => exact (Int.sign_eq_neg_one_of_neg (by omega)).symm
    · have hzero : s16 a - s16 b = 0 := by omega
      rw [hzero]
      rfl

/-- A difference of two words that is too large for 16 bits wraps to a negative word. -/
theorem s16_wrap16_neg_of_gt {n : Int} (h : 32767 < n) (h' : n < 65536) : s16 (wrap16 n) < 0 := by
  rw [s16_wrap16, Int.bmod_def]
  omega

/-- A difference of two words that is too small for 16 bits wraps to a positive word. -/
theorem s16_wrap16_pos_of_lt {n : Int} (h : n < -32768) (h' : -65536 < n) : 0 < s16 (wrap16 n) := by
  rw [s16_wrap16, Int.bmod_def]
  omega

/-- Settles O12: a difference that does not fit wraps to the opposite sign. -/
theorem compReadingsAgreeExactlyInRange : Obligations.CompReadingsAgreeExactlyInRange := by
  intro a b
  have ha := s16_bounds a
  have hb := s16_bounds b
  rw [s16_cmp16, sub16]
  by_cases hfits : -32768 ≤ s16 a - s16 b ∧ s16 a - s16 b ≤ 32767
  · simp only [s16_wrap16_of_fits hfits, hfits, true_and]
  · refine iff_of_false (fun hsign => ?_) hfits
    rcases lt_or_ge (s16 a - s16 b) 0 with hneg | hpos
    · have hwrap : 0 < s16 (wrap16 (s16 a - s16 b)) := s16_wrap16_pos_of_lt (by omega) (by omega)
      rw [Int.sign_eq_neg_one_of_neg hneg, Int.sign_eq_one_of_pos hwrap] at hsign
      cases hsign
    · have hwrap : s16 (wrap16 (s16 a - s16 b)) < 0 := s16_wrap16_neg_of_gt (by omega) (by omega)
      rw [Int.sign_eq_one_of_pos (by omega), Int.sign_eq_neg_one_of_neg hwrap] at hsign
      cases hsign

/-! ### Division (40_cycle_and_alu.md R123) -/

/-- Away from the one overflow the quotient fits 16 bits. -/
theorem s16_div16 {a b : Word} (h : b ≠ 0) (hover : ¬ (a = 0x8000 ∧ b = 0xFFFF)) :
    s16 (div16 a b h) = (s16 a).tdiv (s16 b) :=
  calc s16 (div16 a b h) = (a.sdiv b).toInt := (s16_wrap16 _).trans (BitVec.toInt_sdiv a b).symm
    _ = (s16 a).tdiv (s16 b) := BitVec.toInt_sdiv_of_ne_or_ne a b (not_and_or.mp hover)

/-- A remainder of truncated division lies between 0 and the dividend. -/
theorem tmod_between (a b : Int) : (0 ≤ a.tmod b ∧ a.tmod b ≤ a) ∨ (a ≤ a.tmod b ∧ a.tmod b ≤ 0) := by
  have habs : (a.tmod b).natAbs ≤ a.natAbs := Int.natAbs_tmod a b ▸ Nat.mod_le _ _
  rcases Int.le_total 0 a with ha | ha
  · have hrem := Int.tmod_nonneg b ha
    omega
  · have hrem := Int.tmod_nonneg b (Int.neg_nonneg_of_nonpos ha)
    rw [Int.neg_tmod] at hrem
    omega

/-- Rounding toward zero: the product does not pass the dividend, keeps to its side of zero, and misses it by a remainder. -/
theorem tdiv_mul_truncates (a : Int) {b : Int} (hb : b ≠ 0) :
    (a.tdiv b * b).natAbs ≤ a.natAbs ∧ 0 ≤ a.tdiv b * b * a ∧ (a - a.tdiv b * b).natAbs < b.natAbs := by
  have hsum := Int.tdiv_mul_add_tmod a b
  have hrem : (a.tmod b).natAbs < b.natAbs := Int.natAbs_tmod a b ▸ Nat.mod_lt _ (Int.natAbs_pos.mpr hb)
  generalize a.tdiv b * b = p at hsum ⊢
  rcases tmod_between a b with ⟨h0, ha⟩ | ⟨ha, h0⟩
  · exact ⟨by omega, Int.mul_nonneg (by omega) (by omega), by omega⟩
  · exact ⟨by omega, Int.mul_nonneg_of_nonpos_of_nonpos (by omega) (by omega), by omega⟩

/-- Settles O7. -/
theorem divisionTruncates : Obligations.DivisionTruncates := by
  refine fun a b h => ⟨?_, fun hover => ?_⟩
  · rintro ⟨rfl, rfl⟩
    rfl
  · rw [s16_div16 h hover]
    exact tdiv_mul_truncates (s16 a) fun hb => h (BitVec.eq_of_toInt_eq hb)

/-! ### Shifts (40_cycle_and_alu.md R125) -/

/-- Floor division by a power of two is the arithmetic right shift of the pattern, at every amount. -/
theorem sh16_natCast (a : Word) (n : Nat) : sh16 a n = a.sshiftRight n := by
  rcases Nat.eq_zero_or_pos n with rfl | hn
  · simp [sh16]
  · rw [sh16, if_pos (Int.natCast_pos.mpr hn), Int.toNat_natCast, ← Int.shiftRight_eq_div_pow, ← BitVec.toInt_sshiftRight]
    exact BitVec.ofInt_toInt

/-- Multiplication by a power of two is the left shift of the pattern, at every amount. -/
theorem sh16_neg_natCast (a : Word) (n : Nat) : sh16 a (-(n : Int)) = a <<< n := by
  rcases Nat.eq_zero_or_pos n with rfl | hn
  · simp [sh16]
  · rw [sh16, if_neg (by omega), if_neg (by omega), Int.neg_neg, Int.toNat_natCast, wrap16, BitVec.ofInt_mul,
      BitVec.ofInt_toInt, BitVec.ofInt_natCast, BitVec.shiftLeft_eq_mul_twoPow]
    exact congrArg (a * ·) (BitVec.eq_of_toNat_eq (by rw [BitVec.toNat_ofNat, BitVec.toNat_twoPow]))

/-- A right shift past every bit but the sign leaves the sign. -/
theorem sshiftRight_of_ge {n : Nat} (h : 15 ≤ n) (a : Word) : a.sshiftRight n = if s16 a < 0 then 0xFFFF else 0 := by
  have hpow : (2 : Int) ^ 15 ≤ 2 ^ n := pow_le_pow_right₀ (by decide) h
  obtain ⟨hlo, hhi⟩ := s16_bounds a
  have hquot : (a.sshiftRight n).toInt = s16 a / 2 ^ n := by
    rw [BitVec.toInt_sshiftRight, Int.shiftRight_eq_div_pow, Nat.cast_pow, Nat.cast_ofNat]
  apply BitVec.eq_of_toInt_eq
  rw [hquot]
  split
  · next hneg => exact Int.ediv_eq_neg_one_of_neg_of_le hneg (by omega)
  · next hpos => exact Int.ediv_eq_zero_of_lt (by omega) (by omega)

/-- Settles O8. -/
theorem shiftSaturates : Obligations.ShiftSaturates := by
  refine fun a n => ⟨fun hn => ?_, fun hn => ?_, ?_⟩
  · lift n to Nat using by omega
    rw [sh16_natCast, sshiftRight_of_ge (by omega)]
  · obtain ⟨m, rfl⟩ : ∃ m : Nat, n = -(m : Int) := ⟨(-n).toNat, by omega⟩
    rw [sh16_neg_natCast, BitVec.shiftLeft_eq_zero (by omega)]
    rfl
  · rintro rfl
    rfl

/-- Settles O9. -/
theorem shiftMovesBits : Obligations.ShiftMovesBits := by
  intro a n k _ _ hk
  rw [sh16_natCast, sh16_neg_natCast, BitVec.getLsbD_sshiftRight, BitVec.getLsbD_shiftLeft]
  constructor
  · simp [hk, Nat.add_comm n k, BitVec.msb_eq_getLsbD_last]
  · by_cases hkn : k < n <;> simp [hk, hkn]

end Sys2Proof.Machine

/-!
PROOFS. The bitwise and shift instructions (spec/41_bitwise_shift.md): the word of an R-format instruction, the state that
writing a result leaves, and the values of `not` and `sh`.
-/

namespace Sys2Proof

/-! ### The word of an R-format instruction -/

/-- The sum of shifted fields, by which the instruction rules write an R-format word, is its packed record (30_encoding.md R82). -/
theorem Record.pack_eq_rWord {tag : Nat} (h : tag ≤ 9) (reg1 reg2 reg3 : Reg) (imm : Word) :
    (Record.mk tag reg1 reg2 reg3 imm).pack = rWord tag reg1 reg2 reg3 := by
  apply BitVec.eq_of_toNat_eq
  simp only [Record.pack, if_pos h, toNat_rFields, rWord, BitVec.toNat_ofNat]
  omega

end Sys2Proof

namespace Sys2Proof.Machine

/-! ### The next state of an instruction with a result -/

/-- Writing a result and advancing, as one update of the state (40_cycle_and_alu.md R114). -/
theorem State.writeNext_eq (s : State) (i : Reg) (v : Word) :
    s.writeNext i v = { s with regs := s.regs.set i v, pc := (s.pc + 1) % s.capacity } :=
  congrArg (fun pc => { s with regs := s.regs.set i v, pc }) (ctrAdd_one s.capacity s.pc)

/-! ### The bitwise instructions (R140 to R143) -/

/-- Settles O13: each handler writes its result by `State.writeNext`. -/
theorem andOrXorResults : Obligations.AndOrXorResults := by
  intro reg1 reg2 reg3 s
  simp only [← State.writeNext_eq]
  exact ⟨⟨Record.pack_eq_rWord (by decide) .., rfl⟩, ⟨Record.pack_eq_rWord (by decide) .., rfl⟩,
    Record.pack_eq_rWord (by decide) .., rfl⟩

/-- The complement of a pattern has the signed value `-n - 1`. -/
theorem not16_eq_wrap16 (a : Word) : not16 a = wrap16 (-s16 a - 1) := by
  have hone : BitVec.ofInt 16 (-1) = -1#16 := rfl
  rw [not16, BitVec.not_eq_neg_add, BitVec.sub_eq_add_neg, wrap16, Int.sub_eq_add_neg, BitVec.ofInt_add, hone,
    BitVec.ofInt_neg, BitVec.ofInt_toInt]

/-- Settles O14: neither the handler nor the written value looks at the third field. -/
theorem notResult : Obligations.NotResult := by
  intro reg1 reg2 reg3 s
  rw [← State.writeNext_eq, ← not16_eq_wrap16]
  exact ⟨Record.pack_eq_rWord (by decide) .., rfl⟩

/-! ### The shift instruction (R144) -/

/-- `SH16` by the sign of the amount, the amount 0 being a right shift by nothing. -/
theorem sh16_eq_ite (a : Word) (n : Int) : sh16 a n = if 0 ≤ n then a.sshiftRight n.toNat else a <<< (-n).toNat := by
  split
  · next h => rw [← sh16_natCast, Int.toNat_of_nonneg h]
  · next h => rw [← sh16_neg_natCast, Int.toNat_of_nonneg (by omega), Int.neg_neg]

/-- Settles O15: the written value is `SH16` of the signed amount, whose two sides are the two shifts. -/
theorem shiftResult : Obligations.ShiftResult := by
  intro reg1 reg2 reg3 s
  rw [← State.writeNext_eq, ← sh16_eq_ite]
  exact ⟨Record.pack_eq_rWord (by decide) .., rfl⟩

end Sys2Proof.Machine

/-!
PROOFS. The arithmetic and comparison instructions (spec/42_arithmetic_compare.md): the exact results of the ALU as sixteen-bit
operations on the patterns, the two outcomes of `div`, and the values of `comp`.
-/

namespace Sys2Proof.Machine

/-! ### Addition, subtraction, multiplication (R150 to R152) -/

/-- `SUB16` is the difference of the patterns (40_cycle_and_alu.md R121). -/
theorem sub16_eq_sub (a b : Word) : sub16 a b = a - b := by
  rw [sub16, wrap16, Int.sub_eq_add_neg, BitVec.ofInt_add, BitVec.ofInt_neg, BitVec.ofInt_toInt, BitVec.ofInt_toInt,
    BitVec.sub_eq_add_neg]

/-- `MUL16` is the product of the patterns: the upper sixteen bits of the exact product are discarded (40_cycle_and_alu.md
R122). -/
theorem mul16_eq_mul (a b : Word) : mul16 a b = a * b := by
  rw [mul16, wrap16, BitVec.ofInt_mul, BitVec.ofInt_toInt, BitVec.ofInt_toInt]

/-- Settles O16: each handler writes by `State.writeNext` the exact result of its operation, put back into sixteen bits. -/
theorem addSubMulResults : Obligations.AddSubMulResults := by
  intro reg1 reg2 reg3 s
  simp only [← State.writeNext_eq, ← add16_eq_add, ← sub16_eq_sub, ← mul16_eq_mul]
  exact ⟨⟨Record.pack_eq_rWord (by decide) .., rfl⟩, ⟨Record.pack_eq_rWord (by decide) .., rfl⟩,
    Record.pack_eq_rWord (by decide) .., rfl⟩

/-! ### Division (R153) -/

theorem exec_div_of_zero {s : State} {reg3 : Reg} (h : s.reg reg3 = 0) (reg1 reg2 : Reg) :
    exec (.div reg1 reg2 reg3) s = .next (s.halt exitDivZero) := dif_pos h

theorem exec_div_of_ne_zero {s : State} {reg3 : Reg} (h : s.reg reg3 ≠ 0) (reg1 reg2 : Reg) :
    exec (.div reg1 reg2 reg3) s = .next (s.writeNext reg1 (div16 (s.reg reg2) (s.reg reg3) h)) := dif_neg h

/-- Settles O17: the test of the divisor chooses between the halt and the quotient. -/
theorem divResult : Obligations.DivResult := by
  intro reg1 reg2 reg3 s
  rw [← State.writeNext_eq]
  exact ⟨Record.pack_eq_rWord (by decide) .., fun h => exec_div_of_zero h reg1 reg2, fun h => exec_div_of_ne_zero h reg1 reg2⟩

/-! ### Comparison (R154) -/

theorem cmp16_of_gt {a b : Word} (h : s16 b < s16 a) : cmp16 a b = 0x0001 := if_pos h

theorem cmp16_of_lt {a b : Word} (h : s16 a < s16 b) : cmp16 a b = 0xFFFF := by
  rw [cmp16, if_neg h.asymm, if_pos h]

theorem cmp16_self (a : Word) : cmp16 a a = 0x0000 := by
  rw [cmp16, if_neg (lt_irrefl _), if_neg (lt_irrefl _)]

/-- Settles O18: the written value is `CMP16` of the two sources. -/
theorem compResult : Obligations.CompResult := by
  intro reg1 reg2 reg3 s
  refine ⟨Record.pack_eq_rWord (by decide) .., cmp16 (s.reg reg2) (s.reg reg3), ?_, cmp16_of_gt, cmp16_of_lt, fun h => ?_⟩
  · rw [← State.writeNext_eq]
    rfl
  · rw [h, cmp16_self]

end Sys2Proof.Machine

/-!
PROOFS. The immediate and memory instructions (spec/43_immediate_memory.md): the word of an I-format instruction, the values
that `li` and `lwmc` write, the counter that `amc` moves, and the cell that `swmc` stores, with its frame.
-/

namespace Sys2Proof

/-! ### The word of an I-format instruction -/

/-- The sum of shifted fields, by which the instruction rules write an I-format word, is its packed record (30_encoding.md R83). -/
theorem Record.pack_eq_iWord {tag : Nat} (h : 9 < tag) (reg1 reg2 reg3 : Reg) (imm : Word) :
    (Record.mk tag reg1 reg2 reg3 imm).pack = iWord tag reg2 imm := by
  apply BitVec.eq_of_toNat_eq
  simp only [Record.pack, if_neg (Nat.not_le.mpr h), toNat_iFields, iWord, BitVec.toNat_ofNat, BitVec.extractLsb'_toNat,
    Nat.shiftRight_zero]
  omega

end Sys2Proof

namespace Sys2Proof.Machine

/-! ### Immediate and counter (R160, R161) -/

/-- Settles O19. -/
theorem liResult : Obligations.LiResult := by
  intro reg2 imm s
  rw [← State.writeNext_eq]
  exact ⟨Record.pack_eq_iWord (by decide) .., rfl⟩

/-- Settles O20: the handler moves `mc` by the delta, which is the signed value of the 16-bit sum. -/
theorem amcResult : Obligations.AmcResult := by
  intro reg2 imm s
  rw [← add16_eq_add, ← ctrAdd_one]
  exact ⟨Record.pack_eq_iWord (by decide) .., rfl⟩

/-! ### Load (R162) -/

/-- A `lwmc` whose address is inside memory writes the word there and advances. -/
theorem exec_lwmc {s : State} {imm : Word} (h : s.ea imm < s.capacity) (r : Reg) :
    exec (.lwmc r imm) s = .next (s.writeNext r (s.mem.readWord (s.ea imm))) := by
  simp only [exec, execLwmc, State.memRead_ok (State.inMemory_natCast.mpr h), Int.toNat_natCast]

/-- Settles O21: the counter arithmetic of the address keeps it inside memory. -/
theorem lwmcResult : Obligations.LwmcResult := by
  intro reg2 imm s hcap
  rw [← State.writeNext_eq]
  exact ⟨Record.pack_eq_iWord (by decide) .., exec_lwmc (ctrAdd_lt hcap ..) reg2⟩

/-! ### Store (R163) -/

/-- Settles O22: the store writes the cell at the effective address, and a read of memory after a write tells that cell from
the others. -/
theorem swmcResult : Obligations.SwmcResult := by
  intro reg2 imm s hcap hwf
  exact ⟨Record.pack_eq_iWord (by decide) .., _, exec_swmc (ctrAdd_lt hcap ..) reg2,
    Memory.readWord_writeWord_same hwf (s.ea imm) _, fun _ ha => Memory.readWord_writeWord_ne _ _ ha, ctrAdd_one .., rfl⟩

/-- Settles O57. -/
theorem swmcFrame : Obligations.SwmcFrame := by
  intro r imm s t h
  refine ⟨fun j => exec_reg_eq h nofun, exec_mc_eq h nofun, exec_capacity h, exec_periph_eq h nofun, ?_, fun hm => ?_⟩
  · rintro _ rfl k hhigh hlow
    rcases exec_readByte_cases h k with hsame | ⟨_, _, ⟨⟩, hcell⟩
    · exact hsame
    · exact absurd hcell (not_or.mpr ⟨hhigh, hlow⟩)
  · exact exec_run_eq h nofun nofun (by simp [hm])

end Sys2Proof.Machine

/-!
PROOFS. The peripheral instruction (spec/44_peripheral.md): what the device answers, the state that an answer leaves, the frame
of `piu`, and that no other instruction sees the boundary.
-/

namespace Sys2Proof.Machine

/-! ### The device's answer (R170, R171) -/

theorem State.periphAnswer_of_script {s : State} {a : PeriphAnswer} {rest : List PeriphAnswer}
    (h : s.periph.script = a :: rest) (c : PeriphCall) : s.periphAnswer c = a := by
  simp only [State.periphAnswer, h]

theorem State.periphAnswer_of_no_script {s : State} (h : s.periph.script = []) (c : PeriphCall) :
    ∃ vNew exit, s.periphAnswer c = .returned vNew exit := by
  simp only [State.periphAnswer, h]
  exact ⟨_, _, rfl⟩

/-- Taking an answer, as one update of the state: the written register stays written when the answer also ends the run. -/
theorem State.takeAnswer_eq (s : State) (r : Reg) (vNew exit : Option Word) :
    s.takeAnswer r vNew exit = { s with
      regs := match vNew with | some v => s.regs.set r v | none => s.regs
      run := match exit with | some code => .halted code | none => s.run
      pc := match exit with | some _ => s.pc | none => (s.pc + 1) % s.capacity } := by
  rw [← ctrAdd_one]
  cases vNew <;> cases exit <;> rfl

/-! ### The instruction `piu` (R170) -/

theorem exec_piu_of_returned {s : State} {r : Reg} {imm : Word} {vNew exit : Option Word}
    (h : s.periphAnswer ⟨imm, r, s.reg r⟩ = .returned vNew exit) :
    exec (.piu r imm) s = .next ((s.recordCall ⟨imm, r, s.reg r⟩).takeAnswer r vNew exit) := by
  simp only [exec, execPiu, h]

theorem exec_piu_of_hang {s : State} {r : Reg} {imm : Word} (h : s.periphAnswer ⟨imm, r, s.reg r⟩ = .hang) :
    exec (.piu r imm) s = .fault .peripheralHang := by
  simp only [exec, execPiu, h]

/-- Settles O23. -/
theorem piuTakesScriptedAnswer : Obligations.PiuTakesScriptedAnswer := by
  intro reg2 imm s vNew exit rest hs
  refine ⟨Record.pack_eq_iWord (by decide) .., ?_⟩
  rw [exec_piu_of_returned (State.periphAnswer_of_script hs _), State.takeAnswer_eq, State.recordCall_periph, hs]
  rfl

/-- Settles O24: past the script the answer is the free value. -/
theorem piuCompletesOnFreeAnswer : Obligations.PiuCompletesOnFreeAnswer := by
  intro reg2 imm s hs
  obtain ⟨vNew, exit, ha⟩ := State.periphAnswer_of_no_script hs ⟨imm, reg2, s.reg reg2⟩
  refine ⟨vNew, exit, ?_⟩
  rw [exec_piu_of_returned ha, State.takeAnswer_eq, State.recordCall_periph, hs]
  rfl

/-- Settles O25. -/
theorem piuHangsWithItsDevice : Obligations.PiuHangsWithItsDevice :=
  fun _ _ _ _ hs => exec_piu_of_hang (State.periphAnswer_of_script hs _)

/-- The two ends of a `piu` that has a next state: the advance without an exit code, the halt in place with one. -/
theorem exec_piu_run_pc {r : Reg} {imm : Word} {s t : State} (h : exec (.piu r imm) s = .next t) :
    t.run = s.run ∧ t.pc = (s.pc + 1) % s.capacity ∨ (∃ code, t.run = .halted code) ∧ t.pc = s.pc := by
  cases exec_effect h with
  | result _ _ _ hp => exact absurd rfl (hp r imm)
  | portFault _ _ hi => exact absurd hi (by simp)
  | answer _ _ vNew exit =>
    rw [State.takeAnswer_eq]
    cases exit with
    | none => exact .inl ⟨rfl, rfl⟩
    | some code => exact .inr ⟨⟨code, rfl⟩, rfl⟩

/-- Settles O58. -/
theorem piuFrame : Obligations.PiuFrame := by
  intro r imm s t h
  exact ⟨fun j hj => exec_reg_eq h (by simpa [Instr.dest] using hj.symm), exec_mc_eq h nofun,
    fun k => by rw [exec_mem_eq h nofun], exec_capacity h, exec_piu_run_pc h⟩

/-! ### The two outcomes of the instructions that test the state (R153, R162, R163, R180) -/

theorem exec_lwmc_of_not_lt {s : State} {imm : Word} (h : ¬ s.ea imm < s.capacity) (r : Reg) :
    exec (.lwmc r imm) s = .next (s.raise (.memoryIndexError (s.ea imm))) := by
  simp only [exec, execLwmc, State.memRead_error (mt State.inMemory_natCast.mp h)]

theorem exec_swmc_of_not_lt {s : State} {imm : Word} (h : ¬ s.ea imm < s.capacity) (r : Reg) :
    exec (.swmc r imm) s = .next (s.raise (.memoryIndexError (s.ea imm))) := by
  simp only [exec, execSwmc, State.memWrite_error (mt State.inMemory_natCast.mp h)]

theorem exec_apceq_of_zero {s : State} (h : s.reg regX = 0) (r : Reg) (imm : Word) :
    exec (.apceq r imm) s = .next (s.movePc (s.delta r imm)) := if_pos h

theorem exec_apceq_of_ne_zero {s : State} (h : s.reg regX ≠ 0) (r : Reg) (imm : Word) :
    exec (.apceq r imm) s = .next s.advance := if_neg h

/-! ### No other instruction sees the boundary (R172) -/

/-- The state with another device at the boundary. -/
def State.withPeriph (s : State) (p : PeriphPort) : State := { s with periph := p }

/-- Where one rule gives the next state with either boundary, the next states differ in the boundary alone. -/
theorem exec_withPeriph_of_eq {i : Instr} {s t u : State} {p : PeriphPort} (h : exec i s = .next t) (hs : exec i s = .next u)
    (hp : exec i (s.withPeriph p) = .next (u.withPeriph p)) :
    exec i (s.withPeriph p) = .next (t.withPeriph p) := by
  obtain rfl := Host.Outcome.next.inj (hs.symm.trans h)
  exact hp

/-- An instruction other than `piu` computes its next state without the boundary: neither its test nor its result reads it. -/
theorem exec_withPeriph {i : Instr} {s t : State} (h : exec i s = .next t) (hi : ∀ r imm, i ≠ .piu r imm) (p : PeriphPort) :
    exec i (s.withPeriph p) = .next (t.withPeriph p) := by
  cases i with
  | piu r imm => exact absurd rfl (hi r imm)
  | div r1 r2 r3 =>
    by_cases hz : s.reg r3 = 0
    · exact exec_withPeriph_of_eq h (exec_div_of_zero hz r1 r2) (exec_div_of_zero (s := s.withPeriph p) hz r1 r2)
    · exact exec_withPeriph_of_eq h (exec_div_of_ne_zero hz r1 r2) (exec_div_of_ne_zero (s := s.withPeriph p) hz r1 r2)
  | lwmc r imm =>
    by_cases hm : s.ea imm < s.capacity
    · exact exec_withPeriph_of_eq h (exec_lwmc hm r) (exec_lwmc (s := s.withPeriph p) hm r)
    · exact exec_withPeriph_of_eq h (exec_lwmc_of_not_lt hm r) (exec_lwmc_of_not_lt (s := s.withPeriph p) hm r)
  | swmc r imm =>
    by_cases hm : s.ea imm < s.capacity
    · exact exec_withPeriph_of_eq h (exec_swmc hm r) (exec_swmc (s := s.withPeriph p) hm r)
    · exact exec_withPeriph_of_eq h (exec_swmc_of_not_lt hm r) (exec_swmc_of_not_lt (s := s.withPeriph p) hm r)
  | apceq r imm =>
    by_cases hz : s.reg regX = 0
    · exact exec_withPeriph_of_eq h (exec_apceq_of_zero hz r imm) (exec_apceq_of_zero (s := s.withPeriph p) hz r imm)
    · exact exec_withPeriph_of_eq h (exec_apceq_of_ne_zero hz r imm) (exec_apceq_of_ne_zero (s := s.withPeriph p) hz r imm)
  | _ => exact exec_withPeriph_of_eq h rfl rfl

/-- Settles O46: the fetch does not read the boundary either, and neither end of a run in the fetch does. -/
theorem deviceInvisibleOutsidePiu : Obligations.DeviceInvisibleOutsidePiu := by
  intro s t p hpiu h
  rcases step_next_cases h with ⟨hr, rfl⟩ | ⟨hr, cause, hf, rfl⟩ | ⟨hr, code, hf, rfl⟩ | ⟨hr, i, hf, he⟩
  · exact ⟨rfl, step_of_ne_running hr⟩
  · exact ⟨rfl, step_of_fault (s := s.withPeriph p) hr hf⟩
  · exact ⟨rfl, step_of_sentinel (s := s.withPeriph p) hr hf⟩
  · have hi : ∀ r imm, i ≠ .piu r imm := fun r imm e => hpiu r imm (e ▸ hf)
    exact ⟨exec_periph_eq he hi, (step_of_instr (s := s.withPeriph p) hr hf).trans (exec_withPeriph he hi p)⟩

end Sys2Proof.Machine

/-!
PROOFS. The branch instruction (spec/45_branch.md): its word, and the counter that each outcome of its test moves.
-/

namespace Sys2Proof.Machine

/-- Settles O26: the test of `X` chooses between the move by the delta, with no further step, and the advance. -/
theorem apceqResult : Obligations.ApceqResult := by
  intro reg2 imm s
  refine ⟨Record.pack_eq_iWord (by decide) .., ?_⟩
  rw [← add16_eq_add, ← ctrAdd_one]
  by_cases hX : s.reg 15 = 0
  · rw [if_pos hX]
    exact exec_apceq_of_zero hX reg2 imm
  · rw [if_neg hX]
    exact exec_apceq_of_ne_zero hX reg2 imm

end Sys2Proof.Machine

/-!
PROOFS. Faults and refusals (spec/60_exceptions.md): the byte sizes that construction refuses.
-/

namespace Sys2Proof.Machine

theorem construct_of_bad_size {byteSize : Int} (h : byteSize ≤ 0 ∨ byteSize % 2 = 1) :
    construct byteSize = .error .invalidSize := by
  have hsize : ¬ (0 < byteSize ∧ byteSize % 2 = 0) := by omega
  exact if_neg hsize

/-- Settles O53. -/
theorem constructRefusesBadSizes : Obligations.ConstructRefusesBadSizes :=
  ⟨fun _ => construct_of_bad_size, fun _ => construct_two_mul⟩

end Sys2Proof.Machine

/-!
PROOFS. What is left of the cycle (spec/40_cycle_and_alu.md) and the host's side of a run (spec/70_reset_and_hazards.md): the
placed instruction, the steps that have a next state, the faults of the memory port, the reset state, and the moves of the host
during and outside a run.
-/

namespace Sys2Proof.Machine

/-! ### The placed instruction (40_cycle_and_alu.md R110 to R113) -/

theorem tableWord_toNat (w : Word) : tableWord 16 w.toNat = w := by
  rw [tableWord, Nat.mod_eq_of_lt w.isLt, BitVec.ofNat_toNat, BitVec.setWidth_eq]

/-- The word placed for the next fetch is the word at `pc`. -/
theorem State.readWord_withFetchWord {s : State} (h : s.mem.wf) (w : Word) :
    (s.withFetchWord 16 w.toNat).mem.readWord (s.withFetchWord 16 w.toNat).pc = w :=
  (Memory.readWord_writeWord_same h s.pc _).trans (tableWord_toNat w)

/-- Settles O33: the placed word is read back, and it decodes to the instruction it encodes. -/
theorem placedInstructionRunsNext : Obligations.PlacedInstructionRunsNext := by
  intro s i hwf hpc hi h0 h1
  have hword := State.readWord_withFetchWord hwf (encode i)
  rw [← hword] at h0 h1
  exact step_of_instr rfl (State.fetch_instr hpc h0 h1 (hword.symm ▸ decode_encode hi))

/-! ### Which steps have a next state (44_peripheral.md R170, R171) -/

/-- The device answers every call unless its script begins with a hang. -/
theorem State.periphAnswer_of_head?_ne_hang {s : State} (h : s.periph.script.head? ≠ some .hang) (c : PeriphCall) :
    ∃ vNew exit, s.periphAnswer c = .returned vNew exit := by
  cases hs : s.periph.script with
  | nil => exact State.periphAnswer_of_no_script hs c
  | cons a rest =>
    cases a with
    | returned vNew exit => exact ⟨vNew, exit, State.periphAnswer_of_script hs c⟩
    | hang => exact absurd (congrArg List.head? hs) h

/-- Every instruction has a next state when the device answers: both outcomes of each test on the state are next states. -/
theorem exists_exec_eq_next {s : State} (h : ∀ c, ∃ vNew exit, s.periphAnswer c = .returned vNew exit) (i : Instr) :
    ∃ t, exec i s = .next t := by
  cases i with
  | div r1 r2 r3 =>
    by_cases hz : s.reg r3 = 0
    · exact ⟨_, exec_div_of_zero hz r1 r2⟩
    · exact ⟨_, exec_div_of_ne_zero hz r1 r2⟩
  | lwmc r imm =>
    by_cases hm : s.ea imm < s.capacity
    · exact ⟨_, exec_lwmc hm r⟩
    · exact ⟨_, exec_lwmc_of_not_lt hm r⟩
  | swmc r imm =>
    by_cases hm : s.ea imm < s.capacity
    · exact ⟨_, exec_swmc hm r⟩
    · exact ⟨_, exec_swmc_of_not_lt hm r⟩
  | apceq r imm =>
    by_cases hX : s.reg regX = 0
    · exact ⟨_, exec_apceq_of_zero hX r imm⟩
    · exact ⟨_, exec_apceq_of_ne_zero hX r imm⟩
  | piu r imm =>
    obtain ⟨_, _, ha⟩ := h ⟨imm, r, s.reg r⟩
    exact ⟨_, exec_piu_of_returned ha⟩
  | _ => exact ⟨_, rfl⟩

/-- Settles O38: a fetch ends the run or goes on to an instruction, and only the device could leave that without a next state. -/
theorem stepAnswersUnlessDeviceHangs : Obligations.StepAnswersUnlessDeviceHangs := by
  intro s h
  by_cases hr : s.run = .running
  · cases hf : s.fetch with
    | fault cause => exact ⟨_, step_of_fault hr hf⟩
    | sentinel code => exact ⟨_, step_of_sentinel hr hf⟩
    | instr i =>
      rw [step_of_instr hr hf]
      exact exists_exec_eq_next (State.periphAnswer_of_head?_ne_hang h) i
  · exact ⟨s, step_of_ne_running hr⟩

/-! ### Faults of the memory port (20_memory.md R55) -/

theorem State.fetch_of_not_lt {s : State} (h : ¬ s.pc < s.capacity) : s.fetch = .fault (.memoryIndexError s.pc) := by
  rcases s.fetch_cases with ⟨_, hf⟩ | ⟨hpc, _⟩ | ⟨hpc, _⟩
  · exact hf
  · exact absurd hpc h
  · exact absurd hpc h

/-- Settles O29. -/
theorem portFaultsAbort : Obligations.PortFaultsAbort := by
  intro s
  refine ⟨fun r imm hea => ?_, fun hr hpc => step_of_fault hr (State.fetch_of_not_lt (not_lt.mpr hpc))⟩
  exact ⟨exec_lwmc_of_not_lt (not_lt.mpr hea) r, exec_swmc_of_not_lt (not_lt.mpr hea) r⟩

/-! ### The reset state (10_state.md R25, R36) -/

theorem State.resetOf_safe {capacity : Nat} (h : 0 < capacity) : (State.resetOf capacity).Safe :=
  ⟨⟨h, h, Nat.div_lt_self h (by decide), Memory.nil_wf, nofun⟩, rfl⟩

/-- Settles O35. -/
theorem resetIsSafe : Obligations.ResetIsSafe :=
  ⟨fun _ => State.resetOf_safe, State.resetOf_safe (by decide)⟩

/-! ### The dump (20_memory.md R64) -/

theorem State.length_dumpBytes (s : State) : s.dumpBytes.length = 2 * s.capacity := by
  rw [State.dumpBytes_eq_map, List.length_map, List.length_range]

theorem State.dump_of_inRun {s : State} {started : Bool} (h : s.inRun started) : s.dump started = none := if_pos h

theorem State.dump_of_not_inRun {s : State} {started : Bool} (h : ¬ s.inRun started) :
    ∃ bytes, s.dump started = some bytes ∧ bytes.length = 2 * s.capacity :=
  ⟨s.dumpBytes, if_neg h, s.length_dumpBytes⟩

/-- Settles O52. -/
theorem dumpOnlyOutsideRun : Obligations.DumpOnlyOutsideRun := fun _ =>
  ⟨fun hr => State.dump_of_inRun ⟨rfl, hr⟩, fun hr => State.dump_of_not_inRun fun ⟨_, hrun⟩ => hr hrun,
    State.dump_of_not_inRun fun ⟨hstarted, _⟩ => Bool.false_ne_true hstarted⟩

/-! ### The host's moves, phase by phase (70_reset_and_hazards.md R221, R222) -/

section Session

variable {x : Session}

/-- A session is in its run when it was started and its machine has not ended. -/
theorem Session.inRun_iff : x.machine.inRun x.isStarted ↔ x.phase = .started ∧ x.machine.run = .running :=
  and_congr_left' Session.isStarted_iff

theorem Session.load_of_fresh (h : x.phase = .fresh) {bytes : List Byte} {s : State}
    (hl : x.machine.loadProgram false bytes = .ok s) : x.load bytes = .ok { phase := .loaded, machine := s } := by
  simp [Session.load, Session.isStarted, h, hl]

theorem Session.load_of_loaded (h : x.phase = .loaded) (bytes : List Byte) : x.load bytes = .error .alreadyLoaded := if_pos h

theorem Session.load_of_started (h : x.phase = .started) (bytes : List Byte) : x.load bytes = .error .runStarted := by
  simp [Session.load, Session.isStarted, State.loadProgram, h]

theorem Session.start_of_fresh (h : x.phase = .fresh) : x.start = .error .notLoaded := by
  simp [Session.start, h]

theorem Session.start_of_loaded (h : x.phase = .loaded) : x.start = .ok { x with phase := .started } := by
  simp [Session.start, h]

theorem Session.start_of_started (h : x.phase = .started) : x.start = .error .runStarted := by
  simp [Session.start, h]

theorem Session.cycle_of_ne_started (h : x.phase ≠ .started) : x.cycle = .next x := by
  unfold Session.cycle
  cases hp : x.phase with
  | fresh | loaded => rfl
  | started => exact absurd hp h

theorem Session.construct_two_mul {capacity : Nat} (h : 0 < capacity) (script : List PeriphAnswer) :
    Session.construct (2 * (capacity : Int)) script = .ok { phase := .fresh, machine :=
      { State.resetOf capacity with periph := { script := script, calls := [] } } } := by
  simp only [Session.construct, Machine.construct_two_mul h]

end Session

/-- Settles O59: the reset, the dump and the reading each ask first whether the machine is in its run. -/
theorem hostHasNoMoveDuringRun : Obligations.HostHasNoMoveDuringRun := by
  intro x hx
  refine ⟨Session.load_of_started hx, Session.start_of_started hx, fun hr => ?_, fun y h => ?_⟩
  · have hin : x.machine.inRun x.isStarted := Session.inRun_iff.mpr ⟨hx, hr⟩
    exact ⟨fun _ _ => if_pos hin, State.dump_of_inRun hin, if_pos hin⟩
  · rcases Session.cycle_next h with ⟨_, hphase, hstep⟩ | ⟨hn, _⟩
    · exact ⟨hphase, hstep⟩
    · exact absurd hx hn

/-- Settles O60: the one load that fits leads to the phase from which the start is accepted, and outside the run the test of the
reset, the dump and the reading lets them through. -/
theorem hostMovesOutsideRun : Obligations.HostMovesOutsideRun := by
  intro x
  refine ⟨fun bytes hp hreset he hl => ?_, Session.start_of_fresh, Session.cycle_of_ne_started, fun hout => ?_⟩
  · have hload := State.loadProgram_ok_iff.mpr ⟨rfl, hreset, hl, he, rfl⟩
    exact ⟨_, Session.load_of_fresh hp hload, rfl, Session.load_of_loaded rfl, Session.start_of_loaded rfl⟩
  · have hin : ¬ x.machine.inRun x.isStarted := mt Session.inRun_iff.mp (not_and_or.mpr hout)
    exact ⟨if_neg hin, State.dump_of_not_inRun hin,
      fun _ script hcap => (if_neg hin).trans (Session.construct_two_mul hcap script)⟩

end Sys2Proof.Machine
